-- ==== Sys2Proof/Word.lean ====
section
/-! DEFINITION. The word types of the GOLAY23 core: the 32-bit word a host access moves (R47), the vectors a
register holds in the representation of R11, and a binary matrix as a fixed number of such rows (R5, R18). -/

namespace Sys2Proof

/-- What one host access moves: a whole 32-bit register (R47). -/
abbrev Word := BitVec 32

/-- A binary matrix of `n` rows and `m` columns, rows numbered from 0 (R18); each row is an `m`-element vector. -/
abbrev BitMatrix (n m : Nat) := Vector (BitVec m) n

end Sys2Proof
end

