-- ==== Sys2Proof/Syntax.lean ====
section
/-! DEFINITION. The commands of the block, one constructor per row of spec/opcode_table.json (R62, R68, R69). -/

namespace Sys2Proof

/-- A command, as the word written to `CMD` names it. The operands other than `row` are registers the command's own
rule fixes (R24, R67). -/
inductive Instr where
  /-- No operation (R126). -/
  | nop
  /-- Encode a message vector (R96). -/
  | enc
  /-- Decode in Corrected mode (R122). -/
  | decC
  /-- Decode in Raw mode (R121). -/
  | decR
  /-- Parity-extend a 23-bit word (R100). -/
  | ext
  /-- Syndrome of a 24-bit word (R103). -/
  | syn
  /-- Find the error pattern of a syndrome (R112). -/
  | srch
  /-- Apply an error pattern (R115). -/
  | corr
  /-- Read row `row` of G (R90). -/
  | rdg (row : BitVec 5)
  /-- Read row `row` of H (R91). -/
  | rdh (row : BitVec 5)
  /-- A word with a reserved `OP` (R70): `op` is bits [3:0] and `rest` bits [31:4], whatever they hold. -/
  | reserved (op : BitVec 4) (rest : BitVec 28)
deriving DecidableEq, Repr

end Sys2Proof
end

