-- ==== Sys2Proof/WellFormed.lean ====
section
/-! DEFINITION. Which terms of `Instr` some command word stands for: the row ranges of R66 and the reserved `OP` values
of R70. -/

namespace Sys2Proof

/-- The checks on an instruction's fields. -/
def Instr.wf : Instr → Bool
  | .nop | .enc | .decC | .decR | .ext | .syn | .srch | .corr => true
  | .rdg row => decide (row.toNat < 12)
  | .rdh row => decide (row.toNat < 24)
  | .reserved op _ => decide (9 ≤ op.toNat)

/-- An instruction some command word decodes to (R66, R70). -/
abbrev Instr.WellFormed (i : Instr) : Prop := i.wf = true

end Sys2Proof
end

