-- ==== Sys2Proof/Decode.lean ====
section
/-! DEFINITION. The decoder: the fields of a command word (R61) and the checks of `Execute` in the order R60 gives them,
total on every 32-bit word and rejecting by name (R71, R79); and after it the encoder, from the same tables
(R61, R62, R65, R69). -/

namespace Sys2Proof

/-- Why a command word performs nothing (R127): the two errors a command can raise. -/
inductive CommandError where
  /-- A reserved bit set, or MODE or ROW misused (R71, R131). -/
  | illegalCommand
  /-- LEN differs from the operation's expected length (R65, R129). -/
  | invalidLength
deriving DecidableEq, Repr

/-- `OP`, bits [3:0] (R61). -/
def opOf (w : Word) : Nat := (w.extractLsb' 0 4).toNat

/-- `MODE`, bit [4] (R61). -/
def modeOf (w : Word) : Bool := w.getLsbD 4

/-- `LEN`, bits [12:8] (R61). -/
def lenOf (w : Word) : Nat := (w.extractLsb' 8 5).toNat

/-- `ROW`, bits [20:16] (R61). -/
def rowOf (w : Word) : BitVec 5 := w.extractLsb' 16 5

/-- `w[7:5] | w[15:13] | w[31:21]`, the reserved bits (R60, R64). -/
def reservedOf (w : Word) : BitVec 11 :=
  (w.extractLsb' 5 3).setWidth 11 ||| (w.extractLsb' 13 3).setWidth 11 ||| w.extractLsb' 21 11

/-- `ExpLen(op)`, the operand length each operation expects (R65); 0 where no operand is taken. -/
def expLen : Nat → Nat
  | 1 => 12
  | 2 => 23
  | 3 => 23
  | 4 => 24
  | 5 => 12
  | 6 => 24
  | _ => 0

/-- The operation of a word that passed the checks (R62, R63, R68). -/
def operationOf (op : Nat) (mode : Bool) (row : BitVec 5) : Except CommandError Instr :=
  match op with
  | 0 => .ok .nop
  | 1 => .ok .enc
  | 2 => .ok (if mode then .decR else .decC)
  | 3 => .ok .ext
  | 4 => .ok .syn
  | 5 => .ok .srch
  | 6 => .ok .corr
  | 7 => .ok (.rdg row)
  | 8 => .ok (.rdh row)
  | _ => .error .illegalCommand

/-- The decoder: R60's checks in their order. A reserved `OP` is the table's own row, an instruction whose meaning
raises IllegalCommand (R70), so the first check answers it; the other checks reject by name. -/
def decode (w : Word) : Except CommandError Instr :=
  let op := opOf w
  if 9 ≤ op then .ok (.reserved (w.extractLsb' 0 4) (w.extractLsb' 4 28))
  else if reservedOf w ≠ 0 then .error .illegalCommand
  else if modeOf w = true ∧ op ≠ 2 then .error .illegalCommand
  else if rowOf w ≠ 0 ∧ op ≠ 7 ∧ op ≠ 8 then .error .illegalCommand
  else if op = 7 ∧ 12 ≤ (rowOf w).toNat then .error .illegalCommand
  else if op = 8 ∧ 24 ≤ (rowOf w).toNat then .error .illegalCommand
  else if lenOf w ≠ expLen op then .error .invalidLength
  else operationOf op (modeOf w) (rowOf w)

/-- A command word from its fields, reserved bits 0 (R61). -/
def commandWord (op : BitVec 4) (mode : Bool) (len row : BitVec 5) : Word :=
  op.setWidth 32 ||| (BitVec.ofBool mode).setWidth 32 <<< 4 ||| len.setWidth 32 <<< 8 ||| row.setWidth 32 <<< 16

/-- The encoder: an instruction's command word (R68, R69). -/
def encode : Instr → Word
  | .nop => commandWord 0 false 0 0
  | .enc => commandWord 1 false 12 0
  | .decC => commandWord 2 false 23 0
  | .decR => commandWord 2 true 23 0
  | .ext => commandWord 3 false 23 0
  | .syn => commandWord 4 false 24 0
  | .srch => commandWord 5 false 12 0
  | .corr => commandWord 6 false 24 0
  | .rdg row => commandWord 7 false 0 row
  | .rdh row => commandWord 8 false 0 row
  | .reserved op rest => op.setWidth 32 ||| rest.setWidth 32 <<< 4

/-- The instruction the decoder reads from a word numbered as spec/opcode_table.json numbers it: one 32-bit command
word, bit 0 its least significant bit (R12, R73). Bits at and above `nbits` are 0. -/
def decodeTableWord (nbits w : Nat) : Option Instr :=
  match decode (BitVec.ofNat 32 (w % 2 ^ nbits)) with
  | .ok i => some i
  | .error _ => none

end Sys2Proof
end

