-- ==== Sys2Proof/Config.lean ====
section
/-! DEFINITION. What the spec fixes for the block or leaves to an implementation or a platform: the seed row and its
admissible values (R6, R89, D2), the size of the register window (R45), its base
address (R7), and what becomes of a bus transfer that reset cuts short (R151). -/

namespace Sys2Proof

/-- What the platform's bus may do with a stalled transfer when reset is asserted (R151: "completed, aborted or
errored on the bus"). -/
inductive CutTransfer where
  | completed
  | aborted
  | errored
deriving DecidableEq, Repr, Inhabited

namespace Config

/-- `SEED` at the value the spec fixes wherever it gives one, element 0 first (R6, D2; log entry 1). -/
def seed : BitVec 11 := 0b11011100010#11

/-- The 22 admissible values of `SEED`, in the order of D2 (R6, R89). -/
def admissibleSeeds : List (BitVec 11) :=
  [0b00010110111#11, 0b00011101101#11, 0b00101101110#11, 0b00111011010#11, 0b01000111011#11, 0b01011011100#11] ++
  [0b01101000111#11, 0b01101110001#11, 0b01110001011#11, 0b01110110100#11, 0b10001011011#11, 0b10001110110#11] ++
  [0b10100011101#11, 0b10110100011#11, 0b10110111000#11, 0b10111000101#11, 0b11000101101#11, 0b11010001110#11] ++
  [0b11011010001#11, 0b11011100010#11, 0b11100010110#11, 0b11101101000#11]

/-- The size of the register window in bytes: offsets 0x00 to 0x1F (R45). -/
def windowBytes : Nat := 32

/-- A quarter of the parameter `BASE`, which the platform chooses 4-aligned; OPEN, so nothing is known of it
(R7; log entry 3). -/
opaque baseWord : Nat

/-- The parameter `BASE`: the platform address of the window (R7). -/
def base : Nat := 4 * baseWord

/-- FREE VALUE (R151, I13; log entry 6): what the bus does with the n-th transfer that reset cuts short. -/
opaque cutTransfer : Nat → CutTransfer

end Config

end Sys2Proof
end

