-- ==== Sys2Proof/Machine/Gf2.lean ====
section
/-! DEFINITION. Vectors and GF(2) arithmetic (R10 to R17, R94): elements of a register, weight, the vector-matrix
product, concatenation and unit vectors. -/

namespace Sys2Proof.Machine

/-- Element `j` of a vector held in a register: bit `n - 1 - j`, so element 0 is the most significant (R11). -/
abbrev elem {n : Nat} (v : BitVec n) (j : Nat) : Bool := v.getMsbD j

/-- The vector whose element `j` is `f j`, each new element appended after the last (R10, R13). -/
def ofElems : (n : Nat) → (Nat → Bool) → BitVec n
  | 0, _ => 0#0
  | n + 1, f => (ofElems n f).concat (f n)

/-- The XOR of `f 0`, …, `f (n - 1)` (R15, R16). -/
def xorSum : Nat → (Nat → Bool) → Bool
  | 0, _ => false
  | n + 1, f => xorSum n f ^^ f n

/-- How many of `f 0`, …, `f (n - 1)` are 1. -/
def countOnes : Nat → (Nat → Bool) → Nat
  | 0, _ => 0
  | n + 1, f => countOnes n f + (f n).toNat

/-- `wt(v)`, the number of elements equal to 1 (R14). -/
def wt {n : Nat} (v : BitVec n) : Nat := countOnes n (elem v)

/-- Row `r` of a matrix; no caller reads past the last row. -/
def matRow {n m : Nat} (M : BitMatrix n m) (r : Nat) : BitVec m := M[r]?.getD 0

/-- `v × M`: element `c` is the XOR over the rows `r` of `v<r> AND M[r][c]` (R16). -/
def vecMat {n m : Nat} (v : BitVec n) (M : BitMatrix n m) : BitVec m :=
  ofElems m fun c => xorSum n fun r => elem v r && elem (matRow M r) c

/-- `[a, b] = (a << 12) | b`: elements 0 to 11 from `a` and 12 to 23 from `b` (R13). -/
def joinHalves (a b : BitVec 12) : BitVec 24 := a.setWidth 24 <<< 12 ||| b.setWidth 24

/-- `w ++ p = (w << 1) | p`: one element appended after the last of a 23-bit vector (R13). -/
def appendBit (w : BitVec 23) (p : Bool) : BitVec 24 := w.setWidth 24 <<< 1 ||| (BitVec.ofBool p).setWidth 24

/-- `unit12(i)`, the 12-bit vector with a single 1 at element `i` (R17). -/
def unit12 (i : Nat) : BitVec 12 := 1#12 <<< (11 - i)

/-- The least `i < n` at which `p` holds, an ascending scan that stops at the first match (R108). -/
def firstMatch (n : Nat) (p : Nat → Bool) : Option Nat := (List.range n).find? p

end Sys2Proof.Machine
end

