-- ==== Sys2Proof/Machine/Builder.lean ====
section
/-! DEFINITION. The matrix builder `BUILD()` (R80 to R84), with the seed row as its argument (R6). -/

namespace Sys2Proof.Machine

/-- `Bh[r][k]`, the right block of G: row `r` is the seed rotated left by `r`, row 11 is eleven 1s (R81). -/
def bhEntry (seed : BitVec 11) (r k : Nat) : Bool :=
  if r < 11 then elem seed ((k + r) % 11) else true

/-- `G[r][c]`, `G = [ I_12 | Bh ]` (R82). -/
def gEntry (seed : BitVec 11) (r c : Nat) : Bool :=
  if c < 12 then decide (c = r) else bhEntry seed r (c - 12)

/-- `B[r][k]`: `Bh` with the trailing column, 1 in rows 0 to 10 and 0 in row 11 (R83). -/
def bEntry (seed : BitVec 11) (r k : Nat) : Bool :=
  if k < 11 then bhEntry seed r k else decide (r < 11)

/-- `H[r][c]`, `H = [ I_12 ; B ]`, rows stacked (R84). -/
def hEntry (seed : BitVec 11) (r c : Nat) : Bool :=
  if r < 12 then decide (c = r) else bEntry seed (r - 12) c

/-- `BUILD().G` (R80, R82). -/
def buildG (seed : BitVec 11) : BitMatrix 12 23 :=
  Vector.ofFn fun r => ofElems 23 (gEntry seed r.val)

/-- `BUILD().H` (R80, R84). -/
def buildH (seed : BitVec 11) : BitMatrix 24 12 :=
  Vector.ofFn fun r => ofElems 12 (hEntry seed r.val)

end Sys2Proof.Machine
end

