-- ==== Sys2Proof/Machine/State.lean ====
section
/-! DEFINITION. The state of the block as R22 lists it, the model's own fields that stand for the host at its port
(R21, R143, R147), the reasons a step can stop, and the state right after reset (R148). -/

namespace Sys2Proof.Machine

/-- What the host, or the reset input, does to the block next (R21, R19, R150, R151). Offsets are bytes from `BASE`,
widths are bits; a burst counts as its total width (R47). -/
inductive HostEvent where
  /-- `BusRead(off)` of `width` bits. -/
  | read (off width : Nat)
  /-- `BusWrite(off, v)` of `width` bits; `v` is the value a 32-bit write carries. -/
  | write (off width : Nat) (v : Word)
  /-- The reset input becomes asserted (`true`) or released (`false`). -/
  | resetInput (asserted : Bool)
  /-- A write of `v` to `CMD` is stalled on the bus when reset is asserted (R151). -/
  | cutCommand (v : Word)
deriving DecidableEq, Repr

/-- What an access answers the host. -/
inductive Reply where
  /-- The data a read returns (R48). -/
  | data (v : Word)
  /-- A write was performed (R51). -/
  | written
  /-- The access was refused with a bus error response (R48). -/
  | busError
  /-- The transfer of a command that reset cut short ended so (R151). -/
  | cut (how : CutTransfer)
deriving DecidableEq, Repr

/-- Stops with a fault: none. No rule of the spec stops the block; an error of a command is recorded in `STATUS.ERR` and
a bus error is answered to the host, and the block goes on (R128, R134, R137). -/
inductive Fault where
deriving DecidableEq, Repr

/-- Stops without a meaning. -/
inductive Refusal where
  /-- Raised by `exec` for an instruction that has no meaning yet; no arm of this model raises it. Safe. -/
  | notModelled (mnemonic : String)
  /-- Raised by `hostStep` for an access outside the 32-byte window, which is not the block's: "a model of the block has
  no step for it" (R45, I10). Safe: nothing is claimed of such an access. -/
  | outsideWindow
  /-- Raised by `hostStep` for an access while reset is asserted, which the host must not make: "a model has no step for
  it" (R150, I11). Safe: nothing is claimed of such an access. -/
  | accessDuringReset
deriving DecidableEq, Repr

/-- The block's registers and matrices (R22), then the model's own fields for the world outside it. -/
@[ext]
structure State where
  /-- `DIN`, the operand register (R25). -/
  din : BitVec 24
  /-- `EPAT`, the error-pattern register (R26). -/
  epat : BitVec 24
  /-- `DOUT`, the result register (R27). -/
  dout : BitVec 24
  /-- `EXT`, the extended-codeword register (R28). -/
  extReg : BitVec 24
  /-- `SYN`, the syndrome register (R29). -/
  synReg : BitVec 12
  /-- `STATUS.ERR` (R31). -/
  errCode : BitVec 3
  /-- `STATUS.CASE` (R33). -/
  caseCode : BitVec 3
  /-- `STATUS.IDX` (R34). -/
  idx : BitVec 4
  /-- G, the generator matrix (R39). -/
  g : BitMatrix 12 23
  /-- H, the parity-check matrix (R40). -/
  h : BitMatrix 24 12
  /-- The model's own: whether the reset input is asserted (R150). -/
  resetAsserted : Bool
  /-- The model's own: what the host will do next, soonest first (R57, R143). -/
  pending : List HostEvent
  /-- The model's own: what the block has answered, latest first (R147). -/
  replies : List Reply
  /-- The model's own: how many commands reset has cut short, the argument of `Config.cutTransfer` (R151). -/
  cutCount : Nat
deriving DecidableEq, Repr

/-- The reset state of R148 with the matrices `BUILD()` makes from `seed`, and nothing pending. -/
def State.resetWith (seed : BitVec 11) : State where
  din := 0
  epat := 0
  dout := 0
  extReg := 0
  synReg := 0
  errCode := 0
  caseCode := 0
  idx := 0
  g := buildG seed
  h := buildH seed
  resetAsserted := false
  pending := []
  replies := []
  cutCount := 0

/-- The machine right after reset (R148, R149). -/
def State.reset : State := State.resetWith Config.seed

end Sys2Proof.Machine
end

