-- ==== Sys2Proof/Machine/Flags.lean ====
section
/-! DEFINITION. The STATUS register: its field codes (R31 to R34, R127), the computed UNC bit (R32) and the word a read
returns (R30). The block has no other flags (R43). -/

namespace Sys2Proof.Machine

/-- `STATUS.ERR` of a command that completed (R127). -/
def errNone : BitVec 3 := 0
/-- `STATUS.ERR` of InvalidLength (R127). -/
def errInvalidLength : BitVec 3 := 1
/-- `STATUS.ERR` of InvalidBitValue, which no command writes (R127, R130). -/
def errInvalidBitValue : BitVec 3 := 2
/-- `STATUS.ERR` of IllegalCommand (R127). -/
def errIllegalCommand : BitVec 3 := 3

/-- `code(X)`, the code an error records (R127, R128). -/
def errCodeOf : CommandError → BitVec 3
  | .invalidLength => errInvalidLength
  | .illegalCommand => errIllegalCommand

/-- `STATUS.CASE` before any search or decode has completed (R33). -/
def caseNone : BitVec 3 := 0
/-- `STATUS.CASE`: step 3 matched (R33). -/
def caseS3 : BitVec 3 := 1
/-- `STATUS.CASE`: step 4 matched, at row IDX (R33). -/
def caseS4 : BitVec 3 := 2
/-- `STATUS.CASE`: step 5 matched (R33). -/
def caseS5 : BitVec 3 := 3
/-- `STATUS.CASE`: step 6 matched, at row IDX (R33). -/
def caseS6 : BitVec 3 := 4
/-- `STATUS.CASE`: no step matched, uncorrectable (R33). -/
def caseS7 : BitVec 3 := 5
/-- `STATUS.CASE`: the most recent decode ran in Raw mode (R33). -/
def caseRaw : BitVec 3 := 6

/-- `STATUS.UNC`, no storage: 1 exactly when `CASE = 5` (R32). -/
def State.unc (s : State) : Bool := s.caseCode == caseS7

/-- The word a read of STATUS returns: `ERR | (UNC << 3) | (CASE << 4) | (IDX << 8)` (R30). -/
def State.statusWord (s : State) : Word :=
  s.errCode.setWidth 32 ||| (BitVec.ofBool s.unc).setWidth 32 <<< 3 ||| s.caseCode.setWidth 32 <<< 4
    ||| s.idx.setWidth 32 <<< 8

end Sys2Proof.Machine
end

