-- ==== Sys2Proof/Machine/Operands.lean ====
section
/-! DEFINITION. Operand assembly: an operation of expected length L reads `DIN[L-1:0]` and ignores the bits above
(R67). The lengths in use are 12, 23 and 24 (R65). -/

namespace Sys2Proof.Machine

/-- The operand `DIN[L-1:0]` of an operation of expected length `L` (R67). -/
def State.operand (s : State) (len : Nat) : BitVec len := s.din.setWidth len

/-- A result narrower than DOUT, with zeros above its width (R27, R36). -/
def zext24 {n : Nat} (v : BitVec n) : BitVec 24 := v.setWidth 24

end Sys2Proof.Machine
end

