-- ==== Sys2Proof/Machine/Ops.lean ====
section
/-! DEFINITION. The shared operations on the state: raising an error of a command (the block's only exception, which has
no return: R128, R137, R138), completing one, recording a search, reset, and what is written to and read from the
register window. -/

namespace Sys2Proof.Machine

/-- What one step of this machine answers. -/
abbrev Result := Host.Outcome State Fault Refusal

/-- `raise X` inside a command: STATUS.ERR takes the error's code and nothing else changes; nothing is saved and no
control is transferred (R128, R137). -/
def State.raise (s : State) (e : CommandError) : State := { s with errCode := errCodeOf e }

/-- A command that passed every check: `ERR <- 0` (R60, R31). -/
def State.complete (s : State) : State := { s with errCode := errNone }

/-- `DOUT <- v` (R27). -/
def State.setDout (s : State) (v : BitVec 24) : State := { s with dout := v }

/-- `EXT <- v` (R28). -/
def State.setExt (s : State) (v : BitVec 24) : State := { s with extReg := v }

/-- `SYN <- v` (R29). -/
def State.setSyn (s : State) (v : BitVec 12) : State := { s with synReg := v }

/-- `EPAT <- v` (R26). -/
def State.setEpat (s : State) (v : BitVec 24) : State := { s with epat := v }

/-- `DIN <- v` (R25). -/
def State.setDin (s : State) (v : BitVec 24) : State := { s with din := v }

/-- `STATUS.CASE <- c` and `STATUS.IDX <- i`, always together (R33, R34). -/
def State.setCase (s : State) (c : BitVec 3) (i : BitVec 4) : State := { s with caseCode := c, idx := i }

/-- Answer the host (R147). -/
def State.reply (s : State) (r : Reply) : State := { s with replies := r :: s.replies }

/-- The block's registers at their reset values; G and H are not reset (R148, R41). -/
def State.resetRegs (s : State) : State :=
  { s with din := 0, epat := 0, dout := 0, extReg := 0, synReg := 0, errCode := 0, caseCode := 0, idx := 0 }

/-- The reset input takes a level. Reset takes effect when it is released after having been asserted (R148; log entry
5); a release with nothing asserted changes nothing. -/
def State.resetLevel (s : State) (asserted : Bool) : State :=
  if asserted then { s with resetAsserted := true }
  else if s.resetAsserted then { s.resetRegs with resetAsserted := false }
  else s

/-- Reset is asserted while a command write is stalled: the command has no effect, and what the bus does with the
transfer is the platform's, a free value (R151; log entry 6). -/
def State.cutByReset (s : State) : State :=
  { s.reply (.cut (Config.cutTransfer s.cutCount)) with resetAsserted := true, cutCount := s.cutCount + 1 }

/-- Which access forms the block performs: 32 bits at a multiple of 4 (R47). -/
def accessOk (off width : Nat) : Bool := decide (off % 4 = 0 ∧ width = 32)

/-- Whether an offset lies inside the window (R45). -/
def insideWindow (off : Nat) : Bool := decide (off < Config.windowBytes)

/-- The offset of a platform address inside the window, for the platform that maps it at `BASE` (R7, R45). -/
def windowOffset (address : Nat) : Option Nat :=
  if Config.base ≤ address ∧ address < Config.base + Config.windowBytes then some (address - Config.base) else none

/-- The constant the `ID` register reads as (R38). -/
def idWord : Word := 0x47170C01#32

/-- The word an accepted read returns (R48, R46, R35, R38). -/
def State.readRegister (s : State) (off : Nat) : Word :=
  match off with
  | 0x04 => s.din.setWidth 32
  | 0x08 => s.epat.setWidth 32
  | 0x0C => s.dout.setWidth 32
  | 0x10 => s.extReg.setWidth 32
  | 0x14 => s.synReg.setWidth 32
  | 0x18 => s.statusWord
  | 0x1C => idWord
  | _ => 0

/-- What an accepted write at an offset other than CMD's does: DIN and EPAT store bits [23:0], every other register
ignores it (R48, R51, R25, R26). -/
def State.writeRegister (s : State) (off : Nat) (v : Word) : State :=
  match off with
  | 0x04 => s.setDin (v.setWidth 24)
  | 0x08 => s.setEpat (v.setWidth 24)
  | _ => s

end Sys2Proof.Machine
end

