-- ==== Sys2Proof/Machine/Encoder.lean ====
section
/-! DEFINITION. The GF(2) encoder (R95) and the parity extension (R99), with the commands ENC (R96) and EXT (R100). -/

namespace Sys2Proof.Machine

/-- `Encode(m) = m × G` (R95). -/
def encodeMessage (g : BitMatrix 12 23) (m : BitVec 12) : BitVec 23 := vecMat m g

/-- `Extend(w) = w ++ p` with `p = (wt(w) + 1) mod 2` (R99). -/
def extendWord (w : BitVec 23) : BitVec 24 := appendBit w ((wt w + 1) % 2 == 1)

/-- ENC (R96). -/
def execEnc (s : State) : Result :=
  .next (s.complete.setDout (zext24 (encodeMessage s.g (s.operand 12))))

/-- EXT (R100). -/
def execExt (s : State) : Result :=
  let x := extendWord (s.operand 23)
  .next ((s.complete.setExt x).setDout x)

end Sys2Proof.Machine
end

