-- ==== Sys2Proof/Machine/Decoder.lean ====
section
/-! DEFINITION. The syndrome calculator (R102), the coset-leader search (R106), the corrector (R113) and the decoder
(R116 to R118), with the commands SYN, SRCH, CORR, DEC.C and DEC.R (R103, R112, R115, R122, R121). -/

namespace Sys2Proof.Machine

/-- `Syndrome(w) = w × H` (R102). -/
def syndrome (h : BitMatrix 24 12) (w : BitVec 24) : BitVec 12 := vecMat w h

/-- `b_i`, row `i` of the lower half B of H (R40, R105). -/
def bRow (h : BitMatrix 24 12) (i : Nat) : BitVec 12 := matRow h (12 + i)

/-- B, the lower half of H (R40, R83). -/
def lowerHalf (h : BitMatrix 24 12) : BitMatrix 12 12 := Vector.ofFn fun i => bRow h i.val

/-- What `Search` returns: the error pattern, the case code and the row index (R106). -/
structure SearchResult where
  pattern : BitVec 24
  caseCode : BitVec 3
  idx : BitVec 4
deriving DecidableEq, Repr

/-- The row at which step 4 (of `s`) or step 6 (of `s × B`) matches, the first in ascending order (R106, R108). -/
def matchRow (h : BitMatrix 24 12) (v : BitVec 12) : Option Nat :=
  firstMatch 12 fun i => decide (wt (v ^^^ bRow h i) ≤ 2)

/-- Steps 5 to 7 of the search, on `t = s × B` (R106, R109). -/
def searchCheck (h : BitMatrix 24 12) (t : BitVec 12) : SearchResult :=
  if wt t ≤ 3 then ⟨joinHalves 0 t, caseS5, 0⟩
  else
    match matchRow h t with
    | some i => ⟨joinHalves (unit12 i) (t ^^^ bRow h i), caseS6, BitVec.ofNat 4 i⟩
    | none => ⟨0, caseS7, 0⟩

/-- `Search(s)`, steps 3 to 7 in order (R106). -/
def search (h : BitMatrix 24 12) (s : BitVec 12) : SearchResult :=
  if wt s ≤ 3 then ⟨joinHalves s 0, caseS3, 0⟩
  else
    match matchRow h s with
    | some i => ⟨joinHalves (s ^^^ bRow h i) (unit12 i), caseS4, BitVec.ofNat 4 i⟩
    | none => searchCheck h (vecMat s (lowerHalf h))

/-- `Correct(w, e) = w ^ e` (R113). -/
def correct (w e : BitVec 24) : BitVec 24 := w ^^^ e

/-- `Truncate(v)`, elements 0 to 11 of a 24-bit vector (R116). -/
def truncate (v : BitVec 24) : BitVec 12 := v.extractLsb' 12 12

/-- `RawHead(w)`, elements 0 to 11 of a 23-bit vector (R116). -/
def rawHead (w : BitVec 23) : BitVec 12 := w.extractLsb' 11 12

/-- SYN (R103). -/
def execSyn (s : State) : Result :=
  let y := syndrome s.h (s.operand 24)
  .next ((s.complete.setSyn y).setDout (zext24 y))

/-- SRCH (R112). -/
def execSrch (s : State) : Result :=
  let r := search s.h (s.operand 12)
  .next (((s.complete.setEpat r.pattern).setDout r.pattern).setCase r.caseCode r.idx)

/-- CORR (R115). -/
def execCorr (s : State) : Result :=
  .next (s.complete.setDout (correct (s.operand 24) s.epat))

/-- DEC.R: step 1 into EXT and the first 12 received bits into DOUT; SYN and EPAT are not written (R118, R121). -/
def execDecR (s : State) : Result :=
  let w := s.operand 23
  .next (((s.complete.setExt (extendWord w)).setDout (zext24 (rawHead w))).setCase caseRaw 0)

/-- DEC.C: steps 1 to 7, the correction and the truncation, each intermediate value left in its register
(R117, R122). -/
def execDecC (s : State) : Result :=
  let x := extendWord (s.operand 23)
  let y := syndrome s.h x
  let r := search s.h y
  .next (((((s.complete.setExt x).setSyn y).setEpat r.pattern).setDout
    (zext24 (truncate (correct x r.pattern)))).setCase r.caseCode r.idx)

end Sys2Proof.Machine
end

