-- ==== Sys2Proof/Machine/MatrixRead.lean ====
section
/-! DEFINITION. The matrix read commands RDG and RDH (R90, R91). -/

namespace Sys2Proof.Machine

/-- RDG: DOUT takes row `r` of G; a row past 11 raises IllegalCommand (R90, R66). -/
def execRdg (r : BitVec 5) (s : State) : Result :=
  if r.toNat < 12 then .next (s.complete.setDout (zext24 (matRow s.g r.toNat)))
  else .next (s.raise .illegalCommand)

/-- RDH: DOUT takes row `r` of H; a row past 23 raises IllegalCommand (R91, R66). -/
def execRdh (r : BitVec 5) (s : State) : Result :=
  if r.toNat < 24 then .next (s.complete.setDout (zext24 (matRow s.h r.toNat)))
  else .next (s.raise .illegalCommand)

end Sys2Proof.Machine
end

