-- ==== Sys2Proof/Machine/System.lean ====
section
/-! DEFINITION. NOP (R126) and the reserved operations (R70). -/

namespace Sys2Proof.Machine

/-- NOP: only `ERR <- 0` (R126). -/
def execNop (s : State) : Result := .next s.complete

/-- A reserved `OP`: IllegalCommand whatever the other fields hold, and nothing but STATUS.ERR changes (R70, R131). -/
def execReserved (s : State) : Result := .next (s.raise .illegalCommand)

end Sys2Proof.Machine
end

