-- ==== Sys2Proof/Machine/Dispatch.lean ====
section
/-! DEFINITION. One arm per command (R68). -/

namespace Sys2Proof.Machine

/-- Run one decoded command. -/
def exec (i : Instr) (s : State) : Host.Outcome State Fault Refusal :=
  match i with
  | .nop => Sys2Proof.Machine.execNop s
  | .enc => Sys2Proof.Machine.execEnc s
  | .decC => Sys2Proof.Machine.execDecC s
  | .decR => Sys2Proof.Machine.execDecR s
  | .ext => Sys2Proof.Machine.execExt s
  | .syn => Sys2Proof.Machine.execSyn s
  | .srch => Sys2Proof.Machine.execSrch s
  | .corr => Sys2Proof.Machine.execCorr s
  | .rdg row => Sys2Proof.Machine.execRdg row s
  | .rdh row => Sys2Proof.Machine.execRdh row s
  | .reserved _ _ => Sys2Proof.Machine.execReserved s

end Sys2Proof.Machine
end

