-- ==== Sys2Proof/Machine/Bus.lean ====
section
/-! DEFINITION. The host port: executing a command word (R60), the bus accesses (R48), and one event of the host or of
the reset input as one transition (R21, R52, R153). -/

namespace Sys2Proof.Machine

/-- `Execute(w)`: a word that fails a check raises its error and performs nothing; any other performs its operation
(R60, R79). -/
def execute (w : Word) (s : State) : Result :=
  match decode w with
  | .ok i => exec i s
  | .error e => .next (s.raise e)

/-- `BusRead(off)`: the reply is the register's word, or a bus error; nothing else changes (R48, R50). -/
def busRead (off width : Nat) (s : State) : Result :=
  if accessOk off width then .next (s.reply (.data (s.readRegister off)))
  else .next (s.reply .busError)

/-- `BusWrite(off, v)`: a write to CMD executes `v`; a refused write changes nothing and executes nothing
(R48, R51, R35). -/
def busWrite (off width : Nat) (v : Word) (s : State) : Result :=
  if accessOk off width then
    if off = 0 then execute v (s.reply .written) else .next ((s.reply .written).writeRegister off v)
  else .next (s.reply .busError)

/-- An access is the block's to perform only inside the window and outside reset (R45, R150). -/
def guarded (off : Nat) (s : State) (perform : Result) : Result :=
  if insideWindow off then
    if s.resetAsserted then .refused .accessDuringReset else perform
  else .refused .outsideWindow

/-- One event, as one indivisible transition (R52, R153). -/
def hostStep (e : HostEvent) (s : State) : Result :=
  match e with
  | .read off width => guarded off s (busRead off width s)
  | .write off width v => guarded off s (busWrite off width v s)
  | .resetInput asserted => .next (s.resetLevel asserted)
  | .cutCommand _ => if s.resetAsserted then .refused .accessDuringReset else .next s.cutByReset

/-- The next pending event, with the state it leaves behind; the block takes no step of its own (R21). -/
def State.takeEvent (s : State) : Option (HostEvent × State) :=
  match s.pending with
  | [] => none
  | e :: rest => some (e, { s with pending := rest })

end Sys2Proof.Machine
end

