-- ==== Sys2Proof/Machine/Step.lean ====
section
/-! DEFINITION. One step of the machine: the next pending event of the host, or nothing. -/

namespace Sys2Proof.Machine

/-- One step: the soonest pending event is performed. With nothing pending the block stays as it is, since it takes no
step of its own (R21; log entry 4). -/
def step (s : State) : Host.Outcome State Fault Refusal :=
  match s.takeEvent with
  | none => .next s
  | some (e, t) => hostStep e t

/-- `s` about to run the command word `w`: the host writes it to CMD next, outside reset. Bits at and above `nbits`
are 0. -/
def State.withFetchWord (s : State) (nbits w : Nat) : State :=
  { s with resetAsserted := false, pending := .write 0 32 (BitVec.ofNat 32 (w % 2 ^ nbits)) :: s.pending }

end Sys2Proof.Machine
end

