-- ==== Sys2Proof/Machine/Assembly.lean ====
section
/-! DEFINITION. Host programs as the spec writes them (R74 to R77): a line of a program as data, the accesses it stands
for, and the line a command word is disassembled to. -/

namespace Sys2Proof.Machine

/-- The names of the window's registers (R46, R74). -/
inductive RegName where
  | cmd | din | epat | dout | ext | syn | status | id
deriving DecidableEq, Repr

/-- A register's offset in the window (R46). -/
def RegName.offset : RegName → Nat
  | .cmd => 0x00
  | .din => 0x04
  | .epat => 0x08
  | .dout => 0x0C
  | .ext => 0x10
  | .syn => 0x14
  | .status => 0x18
  | .id => 0x1C

/-- The register value a vector string stands for: its elements, element 0 first, read as a binary numeral
(R74, R11). -/
def vectorValue (elements : List Bool) : Word :=
  elements.foldl (fun v b => v <<< 1 ||| (BitVec.ofBool b).setWidth 32) 0

/-- A line of a host program (R74 to R76). -/
inductive AsmLine where
  /-- `wr REG, VALUE`. -/
  | wr (reg : RegName) (v : Word)
  /-- `rd REG`. -/
  | rd (reg : RegName)
  /-- `MNEMONIC [ROW] [len=N]`. -/
  | command (i : Instr) (len : Option (BitVec 5))
  /-- `cmd VALUE`. -/
  | cmdRaw (v : Word)
  /-- `wr8 OFF, VALUE`. -/
  | wr8 (off : Nat) (v : BitVec 8)
  /-- `wr OFF, VALUE`. -/
  | wrAt (off : Nat) (v : Word)
  /-- `rd OFF`. -/
  | rdAt (off : Nat)
  /-- `dec`, which is `dec.c`. -/
  | dec
  /-- `encode V`. -/
  | encode (v : Word)
  /-- `decode V`. -/
  | decode (v : Word)
  /-- `decode.raw V`. -/
  | decodeRaw (v : Word)
  /-- `correct W, E`. -/
  | correct (w e : Word)
deriving DecidableEq, Repr

/-- A command word with its LEN field replaced (R75). -/
def withLen (w : Word) (len : BitVec 5) : Word :=
  (w &&& ~~~ (0x1F#32 <<< 8)) ||| len.setWidth 32 <<< 8

/-- The word a command line assembles to (R75). -/
def assembleCommand (i : Instr) : Option (BitVec 5) → Word
  | none => Sys2Proof.encode i
  | some n => withLen (Sys2Proof.encode i) n

/-- A 32-bit write to a register. -/
def RegName.write (r : RegName) (v : Word) : HostEvent := .write r.offset 32 v

/-- The accesses a line stands for, in order (R74 to R76). -/
def AsmLine.events : AsmLine → List HostEvent
  | .wr r v => [r.write v]
  | .rd r => [.read r.offset 32]
  | .command i len => [RegName.cmd.write (assembleCommand i len)]
  | .cmdRaw v => [RegName.cmd.write v]
  | .wr8 off v => [.write off 8 (v.setWidth 32)]
  | .wrAt off v => [.write off 32 v]
  | .rdAt off => [.read off 32]
  | .dec => [RegName.cmd.write (Sys2Proof.encode .decC)]
  | .encode v => [RegName.din.write v, RegName.cmd.write (Sys2Proof.encode .enc)]
  | .decode v => [RegName.din.write v, RegName.cmd.write (Sys2Proof.encode .decC)]
  | .decodeRaw v => [RegName.din.write v, RegName.cmd.write (Sys2Proof.encode .decR)]
  | .correct w e => [RegName.din.write w, RegName.epat.write e, RegName.cmd.write (Sys2Proof.encode .corr)]

/-- The line a command word is disassembled to: its mnemonic, the mnemonic with `len=N` where only LEN is wrong, and
`cmd VALUE` otherwise (R77). -/
def disassemble (w : Word) : AsmLine :=
  match decode w with
  | .ok (.reserved _ _) => .cmdRaw w
  | .ok i => .command i none
  | .error .illegalCommand => .cmdRaw w
  | .error .invalidLength =>
    match operationOf (opOf w) (modeOf w) (rowOf w) with
    | .ok i => .command i (some (w.extractLsb' 8 5))
    | .error _ => .cmdRaw w

end Sys2Proof.Machine
end

