-- ==== Sys2Proof/Safety.lean ====
section
/-! DEFINITION. What holds in every state the block can be in, and what the host owes it: the terms the statements use. -/

namespace Sys2Proof.Machine

/-- The matrices are what `BUILD()` makes of this seed (R39, R40, R41). -/
def State.Built (s : State) (seed : BitVec 11) : Prop := s.g = buildG seed ∧ s.h = buildH seed

/-- The matrices are what `BUILD()` makes of one of the 22 admissible seeds (R6, R89, R41). -/
def State.MatricesOk (s : State) : Prop := ∃ seed ∈ Config.admissibleSeeds, s.Built seed

/-- STATUS.ERR holds no reserved code and not the code of InvalidBitValue (R127, R130); STATUS.CASE is not 7 (R33);
STATUS.IDX is a row number where CASE is 2 or 4, and 0 otherwise (R34). -/
def State.StatusOk (s : State) : Prop :=
  (s.errCode = errNone ∨ s.errCode = errInvalidLength ∨ s.errCode = errIllegalCommand) ∧
  s.caseCode.toNat ≤ 6 ∧
  (if s.caseCode = caseS4 ∨ s.caseCode = caseS6 then s.idx.toNat ≤ 11 else s.idx = 0)

/-- The invariant of the block: its matrices are built and its status is legal. -/
def State.Inv (s : State) : Prop := s.MatricesOk ∧ s.StatusOk

/-- The event is one the model performs: no access outside the window (R45; log entry 7), none while reset is asserted
(R146, R150), and no command write cut short while it already is (log entry 6). -/
def HostEvent.Dutiful (s : State) : HostEvent → Prop
  | .read off _ => off < Config.windowBytes ∧ s.resetAsserted = false
  | .write off _ _ => off < Config.windowBytes ∧ s.resetAsserted = false
  | .resetInput _ => True
  | .cutCommand _ => s.resetAsserted = false

/-- Everything a command may read or write, and nothing of the host's side: two states agree on the block (R22). -/
def State.SameBlock (s t : State) : Prop :=
  s.din = t.din ∧ s.epat = t.epat ∧ s.dout = t.dout ∧ s.extReg = t.extReg ∧ s.synReg = t.synReg ∧
  s.errCode = t.errCode ∧ s.caseCode = t.caseCode ∧ s.idx = t.idx ∧ s.g = t.g ∧ s.h = t.h

/-- Two states agree on everything outside the block: what the host will do, what it was answered, the reset input. -/
def State.SameHost (s t : State) : Prop :=
  s.pending = t.pending ∧ s.replies = t.replies ∧ s.resetAsserted = t.resetAsserted ∧ s.cutCount = t.cutCount

end Sys2Proof.Machine
end

