-- ==== Sys2Proof/Certificates/Slice0/Obligations.lean ====
section
/-! DEFINITION. The statements for the provers. The first part says, apart from the model, what the spec's tables and
register forms say, so that a statement compares the model with the spec and not with itself. -/

open Sys2Proof Sys2Proof.Machine

namespace Sys2Proof.Spec

/-- `w[lo+len-1:lo]` as an unsigned value (R12). -/
def field (w : Word) (lo len : Nat) : Nat := w.toNat / 2 ^ lo % 2 ^ len

/-- The population count of a register value (R14). -/
def weight {n : Nat} (v : BitVec n) : Nat := ((List.range n).filter fun i => v.getLsbD i).length

/-- The XOR of `n` bits, as the parity of how many are 1 (R15). -/
def parity (n : Nat) (f : Nat → Bool) : Bool := ((List.range n).filter f).length % 2 == 1

/-- `M[r][c]`, column `c` of an `m`-element row at bit `m - 1 - c` (R11, R18). -/
def entry {n m : Nat} (M : BitMatrix n m) (r c : Nat) : Bool := (M.toList.getD r 0).getLsbD (m - 1 - c)

/-- Row `r` of a matrix as a register value (R11). -/
def rowValue {n m : Nat} (M : BitMatrix n m) (r : Nat) : BitVec m := M.toList.getD r 0

/-- `[a, b]`: the register `(a << 12) | b` (R13). -/
def pair (a b : BitVec 12) : BitVec 24 := BitVec.ofNat 24 (a.toNat * 2 ^ 12 + b.toNat)

/-- `w ++ p`: the register `(w << 1) | p` (R13). -/
def append (w : BitVec 23) (p : Bool) : BitVec 24 := BitVec.ofNat 24 (w.toNat * 2 + p.toNat)

/-- The 44 words that perform an operation, with their operations (R69). -/
def operationTable : List (Instr × Word) :=
  [(Instr.nop, 0x00000000#32), (Instr.enc, 0x00000C01#32), (Instr.decC, 0x00001702#32), (Instr.decR, 0x00001712#32)] ++
  [(Instr.ext, 0x00001703#32), (Instr.syn, 0x00001804#32), (Instr.srch, 0x00000C05#32), (Instr.corr, 0x00001806#32)] ++
  (List.range 12).map (fun r => (Instr.rdg (BitVec.ofNat 5 r), 0x00000007#32 ||| BitVec.ofNat 32 r <<< 16)) ++
  (List.range 24).map (fun r => (Instr.rdh (BitVec.ofNat 5 r), 0x00000008#32 ||| BitVec.ofNat 32 r <<< 16))

/-- Whether an instruction is one of the operations, not the reserved row of the table (R68). -/
def isOperation : Instr → Bool
  | .reserved _ _ => false
  | _ => true

/-- The illegal words (R71): a reserved OP, a reserved bit set, MODE outside DEC, ROW outside RDG and RDH, or ROW out of
range. -/
def Illegal (w : Word) : Prop :=
  9 ≤ field w 0 4 ∨ field w 5 3 ≠ 0 ∨ field w 13 3 ≠ 0 ∨ field w 21 11 ≠ 0 ∨
  (field w 4 1 = 1 ∧ field w 0 4 ≠ 2) ∨ (field w 16 5 ≠ 0 ∧ field w 0 4 ≠ 7 ∧ field w 0 4 ≠ 8) ∨
  (field w 0 4 = 7 ∧ 12 ≤ field w 16 5) ∨ (field w 0 4 = 8 ∧ 24 ≤ field w 16 5)

/-- `ExpLen(op)` for OP 0 to 8, as R129 lists it: 12 for ENC and SRCH, 23 for DEC and EXT, 24 for SYN and CORR, 0 for
NOP, RDG and RDH. -/
def expectedLen : List Nat := [0, 12, 23, 23, 24, 12, 24, 0, 0]

/-- The 23-bit register values of the rows of G at the default seed (R85). -/
def tableG : List (BitVec 23) :=
  [0x4006E2, 0x2005C5, 0x10038B, 0x080716, 0x04062D, 0x02045B] ++
  [0x0100B7, 0x00816E, 0x0042DC, 0x0025B8, 0x001371, 0x000FFF]

/-- The 12-bit register values of the rows of H at the default seed (R86). -/
def tableH : List (BitVec 12) :=
  [0x800, 0x400, 0x200, 0x100, 0x080, 0x040, 0x020, 0x010, 0x008, 0x004, 0x002, 0x001] ++
  [0xDC5, 0xB8B, 0x717, 0xE2D, 0xC5B, 0x8B7, 0x16F, 0x2DD, 0x5B9, 0xB71, 0x6E3, 0xFFE]

/-- `[m, m × B]`, a word of the extended code (R87). -/
def extendedWord (h : BitMatrix 24 12) (m : BitVec 12) : BitVec 24 := pair m (vecMat m (lowerHalf h))

/-- `e ++ ((wt(e) + 1) mod 2)`, the 24-bit error a 23-bit error becomes (R101, R119). -/
def extendedError (e : BitVec 23) : BitVec 24 := append e ((weight e + 1) % 2 == 1)

/-- The 32-bit writes to CMD: the command writes (R35). -/
def isCommandWrite : HostEvent → Bool
  | .write off width _ => off == 0 && width == 32
  | _ => false

/-- The bus accesses, as against the reset input. -/
def isAccess : HostEvent → Bool
  | .read _ _ => true
  | .write _ _ _ => true
  | _ => false

end Sys2Proof.Spec

open Sys2Proof.Spec

/-! ## Encoding -/

/-- Every well-formed instruction, with every operand, is what its own word decodes to (30_encoding.md R61 to R70). -/
def Obligations.DecodeOfEncode : Prop :=
  ∀ i : Instr, i.WellFormed → decode (encode i) = .ok i

/-- A word the decoder reads as an instruction is that instruction's word and no other, and the instruction is
well-formed (R79: one outcome for a word). -/
def Obligations.DecodedWordIsItsEncoding : Prop :=
  ∀ (w : Word) (i : Instr), decode w = .ok i → i.WellFormed ∧ encode i = w

/-- R69: the words that perform an operation are the 44 of the table, and every other word raises IllegalCommand or
InvalidLength. -/
def Obligations.OperationWordsAreThe44 : Prop :=
  operationTable.length = 44 ∧ (operationTable.map Prod.snd).Nodup ∧
  (∀ (w : Word) (i : Instr), isOperation i = true → (decode w = .ok i ↔ (i, w) ∈ operationTable)) ∧
  (∀ (w : Word) (i : Instr) (s : State), (i, w) ∈ operationTable → execute w s = exec i s) ∧
  (∀ (w : Word) (s : State), w ∉ operationTable.map Prod.snd →
    execute w s = .next { s with errCode := 3 } ∨ execute w s = .next { s with errCode := 1 })

/-- R71 with R79: a word is illegal exactly when one of the first six checks fails, whatever the others say; a legal
word has the wrong length exactly when LEN is not the expected one; and ERR after the command tells which (R127). -/
def Obligations.ErrTellsTheOutcomeOfEveryWord : Prop :=
  ∀ (w : Word) (s : State), ∃ t, execute w s = .next t ∧
    (t.errCode = 3 ↔ Illegal w) ∧
    (t.errCode = 1 ↔ ¬ Illegal w ∧ field w 8 5 ≠ expectedLen.getD (field w 0 4) 0) ∧
    (t.errCode = 0 ↔ ¬ Illegal w ∧ field w 8 5 = expectedLen.getD (field w 0 4) 0)

/-- R128: an error of a command sets ERR to its code, 3 for an illegal word and 1 for a wrong length, and changes no
other register. -/
def Obligations.AnErrorWritesOnlyErr : Prop :=
  ∀ (w : Word) (s : State),
    (Illegal w → execute w s = .next { s with errCode := 3 }) ∧
    (¬ Illegal w → field w 8 5 ≠ expectedLen.getD (field w 0 4) 0 → execute w s = .next { s with errCode := 1 })

/-- R70: a word whose OP is 9 to 15 raises IllegalCommand whatever its other fields hold, and changes nothing but ERR;
the instruction it decodes to does the same. -/
def Obligations.ReservedOpIsIllegalWhateverTheRest : Prop :=
  ∀ (op : BitVec 4) (rest : BitVec 28) (s : State), 9 ≤ op.toNat →
    execute (op.setWidth 32 ||| rest.setWidth 32 <<< 4) s = .next { s with errCode := 3 } ∧
    exec (.reserved op rest) s = .next { s with errCode := 3 }

/-- Words written out from the bit fields of R61 decode to the operations of R68: one or more of every family. -/
def Obligations.WordsWrittenOutDecode : Prop :=
  decode 0b00000000000_00000_000_00000_000_0_0000#32 = .ok .nop ∧
  decode 0b00000000000_00000_000_01100_000_0_0001#32 = .ok .enc ∧
  decode 0b00000000000_00000_000_10111_000_0_0010#32 = .ok .decC ∧
  decode 0b00000000000_00000_000_10111_000_1_0010#32 = .ok .decR ∧
  decode 0b00000000000_00000_000_10111_000_0_0011#32 = .ok .ext ∧
  decode 0b00000000000_00000_000_11000_000_0_0100#32 = .ok .syn ∧
  decode 0b00000000000_00000_000_01100_000_0_0101#32 = .ok .srch ∧
  decode 0b00000000000_00000_000_11000_000_0_0110#32 = .ok .corr ∧
  decode 0b00000000000_01011_000_00000_000_0_0111#32 = .ok (.rdg 11) ∧
  decode 0b00000000000_10111_000_00000_000_0_1000#32 = .ok (.rdh 23) ∧
  decode 0b00000000000_00000_000_00000_000_0_1001#32 = .ok (.reserved 9 0)

/-- R77: a word disassembles to the mnemonic whose word it is, to the mnemonic with `len=N` where only LEN is wrong, and
to `cmd VALUE` where it is illegal; and the line it disassembles to assembles back to it. -/
def Obligations.DisassemblyAssemblesBack : Prop :=
  ∀ w : Word,
    (disassemble w).events = [.write 0 32 w] ∧
    (∀ i, (i, w) ∈ operationTable → disassemble w = .command i none) ∧
    (¬ Illegal w → field w 8 5 ≠ expectedLen.getD (field w 0 4) 0 →
      ∃ i, isOperation i = true ∧ disassemble w = .command i (some (BitVec.ofNat 5 (field w 8 5)))) ∧
    (Illegal w → disassemble w = .cmdRaw w)

/-- R75: `len=N` replaces LEN, so a command line raises InvalidLength exactly when N is not the operation's length, and
otherwise performs the operation. -/
def Obligations.LenOverrideProvokesInvalidLength : Prop :=
  ∀ (i : Instr) (n : BitVec 5) (s : State), i.WellFormed → isOperation i = true →
    execute (assembleCommand i (some n)) s =
      if n.toNat = expectedLen.getD (field (encode i) 0 4) 0 then exec i s else .next { s with errCode := 1 }

/-! ## The host port -/

/-- A step performs the command whose word the host writes to CMD: it answers the write and runs the instruction the
word decodes to (R35, R60). -/
def Obligations.StepRunsTheWrittenCommand : Prop :=
  ∀ (s : State) (w : Word) (i : Instr) (rest : List HostEvent),
    s.pending = .write 0 32 w :: rest → s.resetAsserted = false → decode w = .ok i →
    step s = exec i { s with pending := rest, replies := .written :: s.replies }

/-- A step on a word the decoder rejects answers the write and records the error's code (R60, R128). -/
def Obligations.StepRecordsARejectedWord : Prop :=
  ∀ (s : State) (w : Word) (rest : List HostEvent),
    s.pending = .write 0 32 w :: rest → s.resetAsserted = false →
    (decode w = .error .illegalCommand →
      step s = .next { s with pending := rest, replies := .written :: s.replies, errCode := 3 }) ∧
    (decode w = .error .invalidLength →
      step s = .next { s with pending := rest, replies := .written :: s.replies, errCode := 1 })

/-- With nothing pending the block takes no step of its own (R21). That the model's step then answers the same state is
the model's choice (log entry 4). -/
def Obligations.NothingPendingLeavesTheStateAlone : Prop :=
  ∀ s : State, s.pending = [] → step s = .next s

/-- R50: an accepted read answers the register's value (R46, R48) and changes nothing. STATUS is ERR + 8 UNC + 16 CASE +
256 IDX, with UNC 1 exactly when CASE is 5 (R30, R32). -/
def Obligations.ReadsReturnRegistersAndChangeNothing : Prop :=
  ∀ (s : State) (off : Nat) (rest : List HostEvent),
    s.pending = .read off 32 :: rest → s.resetAsserted = false → off % 4 = 0 → off < 32 →
    ∃ v : Word, step s = .next { s with pending := rest, replies := .data v :: s.replies } ∧
      (off = 0x00 → v = 0) ∧ (off = 0x04 → v.toNat = s.din.toNat) ∧ (off = 0x08 → v.toNat = s.epat.toNat) ∧
      (off = 0x0C → v.toNat = s.dout.toNat) ∧ (off = 0x10 → v.toNat = s.extReg.toNat) ∧
      (off = 0x14 → v.toNat = s.synReg.toNat) ∧
      (off = 0x18 → v.toNat = s.errCode.toNat + 8 * (if s.caseCode = 5 then 1 else 0) + 16 * s.caseCode.toNat
        + 256 * s.idx.toNat) ∧
      (off = 0x1C → v = 0x47170C01)

/-- R51: an accepted write to DIN or EPAT stores bits [23:0], one to CMD executes one command, and one to DOUT, EXT,
SYN, STATUS or ID is ignored; each is answered without an error. -/
def Obligations.WritesHaveExactlyTheirEffects : Prop :=
  ∀ (s : State) (off : Nat) (v : Word) (rest : List HostEvent),
    s.pending = .write off 32 v :: rest → s.resetAsserted = false → off % 4 = 0 → off < 32 →
    (off = 0x00 → step s = execute v { s with pending := rest, replies := .written :: s.replies }) ∧
    (off = 0x04 → step s =
      .next { s with pending := rest, replies := .written :: s.replies, din := BitVec.ofNat 24 v.toNat }) ∧
    (off = 0x08 → step s =
      .next { s with pending := rest, replies := .written :: s.replies, epat := BitVec.ofNat 24 v.toNat }) ∧
    (0x0C ≤ off → step s = .next { s with pending := rest, replies := .written :: s.replies })

/-- An access inside the window of another width or at an offset that is no multiple of 4 is answered with a bus error
and changes no register, ERR included (R47, R48, R134). Two things in it are the model's choice: that such an access
is a next state with the answer busError, where I9 also allows no successor state (log entry 8), and that a width is a
number of bits, a burst its total width (log entry 15). -/
def Obligations.RefusedAccessesChangeNothing : Prop :=
  ∀ (s : State) (off width : Nat) (v : Word) (rest : List HostEvent),
    s.pending = .read off width :: rest ∨ s.pending = .write off width v :: rest →
    s.resetAsserted = false → off < 32 → off % 4 ≠ 0 ∨ width ≠ 32 →
    step s = .next { s with pending := rest, replies := .busError :: s.replies }

/-- R45, I10 and R150, I11: an access outside the window, or while reset is asserted, is none the block has a step
for. -/
def Obligations.ForbiddenAccessesHaveNoStep : Prop :=
  ∀ (s : State) (off width : Nat) (v : Word) (rest : List HostEvent),
    s.pending = .read off width :: rest ∨ s.pending = .write off width v :: rest →
    (32 ≤ off → step s = .refused .outsideWindow) ∧
    (off < 32 → s.resetAsserted = true → step s = .refused .accessDuringReset)

/-- A step completes exactly when the next event, if there is one, is an access inside the window outside reset, a
command write cut short outside reset, or a change of the reset input; and no step ends in a fault. The duty not to
access during reset is R146's and R150's, and R45 gives the window. What else the equivalence rests on is the model's
choice: a step with nothing pending completes (log entry 4), a cut during reset is refused (log entry 6), an offset of
32 or more is refused and the offset alone decides (log entry 7), and a misaligned access or one of another width
completes (log entry 8). The clause on faults holds because Fault has no constructor: no rule of the spec stops the
block. -/
def Obligations.DutifulStepsComplete : Prop :=
  ∀ s : State,
    ((∃ t, step s = .next t) ↔ ∀ (e : HostEvent) (rest : List HostEvent), s.pending = e :: rest → e.Dutiful s) ∧
    ∀ r : Fault, step s ≠ .fault r

/-- R37 for everything but commands: a bus access that writes no command word leaves the whole block as it was, but that
an accepted write to DIN or EPAT stores there. ERR is among what stays (R31). -/
def Obligations.OtherAccessesLeaveTheBlockAlone : Prop :=
  ∀ (s t : State) (e : HostEvent) (rest : List HostEvent),
    s.pending = e :: rest → isAccess e = true → isCommandWrite e = false → step s = .next t →
    t.dout = s.dout ∧ t.extReg = s.extReg ∧ t.synReg = s.synReg ∧ t.errCode = s.errCode ∧ t.caseCode = s.caseCode ∧
    t.idx = s.idx ∧ t.g = s.g ∧ t.h = s.h ∧ t.resetAsserted = s.resetAsserted ∧ t.cutCount = s.cutCount ∧
    ((∀ v, e ≠ .write 0x04 32 v) → t.din = s.din) ∧ ((∀ v, e ≠ .write 0x08 32 v) → t.epat = s.epat)

/-- R154 with R57: what the host writes to DIN or EPAT is what its next access reads there, bits [23:0]. -/
def Obligations.AWriteIsReadByTheNextAccess : Prop :=
  ∀ (s : State) (off : Nat) (v : Word) (rest : List HostEvent), off = 0x04 ∨ off = 0x08 →
    s.pending = .write off 32 v :: .read off 32 :: rest → s.resetAsserted = false →
    ∃ t, core.run 2 s = .next t ∧ t.pending = rest ∧
      t.replies = .data (BitVec.ofNat 32 (v.toNat % 2 ^ 24)) :: .written :: s.replies

/-- The window is the 32 bytes at BASE, and an address in it stands for its offset (R45, R7); BASE is a multiple of 4,
as the parameter table of 92_eei_decisions.md has it. That the model holds BASE as four times an opaque number and
names accesses by offset is its own choice (log entry 3). -/
def Obligations.WindowIsThe32BytesAtBase : Prop :=
  ∀ a : Nat, (∀ off, windowOffset a = some off ↔ off < 32 ∧ a = Config.base + off) ∧ Config.base % 4 = 0

/-! ## Reset -/

/-- When reset has been asserted and released, the registers hold 0 and G and H are as before (R148); nothing is said
of the state in between (R150). The model's reset state holds the same values and reads 0 as STATUS. Two clauses about
it are the model's, not R148's: its matrices are those of the default seed (log entry 1), and its reset input is not
asserted (log entry 5, which also says when reset takes effect). -/
def Obligations.ResetLeavesTheResetState : Prop :=
  ∀ (s : State) (rest : List HostEvent), s.pending = .resetInput true :: .resetInput false :: rest →
    core.run 2 s = .next { s with din := 0, epat := 0, dout := 0, extReg := 0, synReg := 0, errCode := 0, caseCode := 0, idx := 0,
                                  resetAsserted := false, pending := rest } ∧
    State.reset = { State.reset with din := 0, epat := 0, dout := 0, extReg := 0, synReg := 0, errCode := 0, caseCode := 0,
                                     idx := 0, resetAsserted := false } ∧
    State.reset.statusWord = 0 ∧ State.reset.unc = false ∧ State.reset.Built Config.seed

/-- R151: no effect of a command that reset interrupts survives: the block after reset is in the reset state, whatever
the command was and whatever the bus did with the transfer (a free value). -/
def Obligations.ResetDuringACommandLeavesTheResetState : Prop :=
  ∀ (s : State) (v : Word) (rest : List HostEvent), s.resetAsserted = false →
    s.pending = .cutCommand v :: .resetInput false :: rest →
    ∃ t, core.run 2 s = .next t ∧ t.SameBlock { State.reset with g := s.g, h := s.h } ∧ t.resetAsserted = false ∧
      t.pending = rest

/-- R152: in the reset state, with the matrices of any admissible seed, the invariant holds: the matrices are valid and
STATUS is legal. -/
def Obligations.ResetStateMeetsTheInvariant : Prop :=
  State.reset.Inv ∧ ∀ seed ∈ Config.admissibleSeeds, (State.resetWith seed).Inv

/-! ## Invariants of every step -/

/-- Every step keeps the invariant: the matrices stay built from an admissible seed (R41), ERR holds 0, 1 or 3 (R127,
R130), CASE is never 7 (R33), and IDX is a row number for CASE 2 and 4 and 0 otherwise (R34). -/
def Obligations.StepKeepsTheInvariant : Prop :=
  ∀ s t : State, s.Inv → step s = .next t → t.Inv

/-- R41 and R92: no step changes G or H: no command, no access, no error and no reset. -/
def Obligations.MatricesNeverChange : Prop :=
  ∀ s t : State, step s = .next t → t.g = s.g ∧ t.h = s.h

/-- R53: reads are idempotent, writing the same value twice to DIN or EPAT is writing it once, and executing the same
command word twice in succession is executing it once. -/
def Obligations.AccessesAreIdempotent : Prop :=
  ∀ (s t : State) (e : HostEvent), isAccess e = true → hostStep e s = .next t →
    ∃ u, hostStep e t = .next u ∧ u.SameBlock t

/-- R68, R37 and R25: what every command leaves as it was. No command changes DIN, G, H or anything outside the block;
DOUT is left by NOP and by a reserved operation; EXT by all but DEC and EXT; SYN by all but DEC.C and SYN; EPAT by all
but SRCH and DEC.C; CASE and IDX by all but SRCH and DEC. -/
def Obligations.CommandsWriteOnlyWhatTheTableLists : Prop :=
  ∀ (i : Instr) (s t : State), exec i s = .next t →
    t.din = s.din ∧ t.g = s.g ∧ t.h = s.h ∧ t.SameHost s ∧
    (i = .nop ∨ isOperation i = false → t.dout = s.dout) ∧
    (i ≠ .decC → i ≠ .decR → i ≠ .ext → t.extReg = s.extReg) ∧
    (i ≠ .decC → i ≠ .syn → t.synReg = s.synReg) ∧
    (i ≠ .decC → i ≠ .srch → t.epat = s.epat) ∧
    (i ≠ .decC → i ≠ .decR → i ≠ .srch → t.caseCode = s.caseCode ∧ t.idx = s.idx)

/-- R67: bits of DIN at and above the operand's length do not affect a command: two states that differ only there are
taken to states that differ only there. -/
def Obligations.DinBitsAboveTheOperandAreIgnored : Prop :=
  ∀ (i : Instr) (len : Nat), (i, len) ∈ [(Instr.enc, 12), (.srch, 12), (.decC, 23), (.decR, 23), (.ext, 23)] →
    ∀ (s : State) (d : BitVec 24), d.toNat % 2 ^ len = s.din.toNat % 2 ^ len →
      ∃ t, exec i s = .next t ∧ exec i { s with din := d } = .next { t with din := d }

/-! ## The commands one by one -/

/-- R126: NOP writes 0 to ERR and nothing else. -/
def Obligations.NopClearsErr : Prop :=
  ∀ s : State, exec .nop s = .next { s with errCode := 0 }

/-- RDG with ROW 0 to 11 leaves the row of G in DOUT, element c at bit 22 - c and bit 23 zero, and ERR 0; ROW past 11
raises IllegalCommand (R90, R66). -/
def Obligations.RdgReadsARowOfG : Prop :=
  ∀ (s : State) (r : BitVec 5),
    (r.toNat < 12 → ∃ t, exec (.rdg r) s = .next t ∧ t = { s with dout := t.dout, errCode := 0 } ∧
      t.dout.getLsbD 23 = false ∧ ∀ c < 23, t.dout.getLsbD (22 - c) = entry s.g r.toNat c) ∧
    (12 ≤ r.toNat → exec (.rdg r) s = .next { s with errCode := 3 })

/-- RDH with ROW 0 to 23 leaves the row of H in DOUT, element c at bit 11 - c and bits 12 to 23 zero, and ERR 0; ROW
past 23 raises IllegalCommand (R91, R66). -/
def Obligations.RdhReadsARowOfH : Prop :=
  ∀ (s : State) (r : BitVec 5),
    (r.toNat < 24 → ∃ t, exec (.rdh r) s = .next t ∧ t = { s with dout := t.dout, errCode := 0 } ∧
      (∀ b, 12 ≤ b → t.dout.getLsbD b = false) ∧ ∀ c < 12, t.dout.getLsbD (11 - c) = entry s.h r.toNat c) ∧
    (24 ≤ r.toNat → exec (.rdh r) s = .next { s with errCode := 3 })

/-- R85 and R86: at the default seed the matrix reads give the values of the two tables. -/
def Obligations.MatrixReadsGiveTheTables : Prop :=
  ∀ s : State, s.Built Config.seed →
    (∀ r : Nat, r < 12 → exec (.rdg (BitVec.ofNat 5 r)) s =
      .next { s with dout := (tableG.getD r 0).setWidth 24, errCode := 0 }) ∧
    (∀ r : Nat, r < 24 → exec (.rdh (BitVec.ofNat 5 r)) s =
      .next { s with dout := (tableH.getD r 0).setWidth 24, errCode := 0 })

/-- R93: at every seed, admissible or not, the final rows are as the source states them, and the left block of G and the
top block of H are identities. -/
def Obligations.FinalRowsAndIdentitiesAtEverySeed : Prop :=
  ∀ seed : BitVec 11,
    rowValue (buildG seed) 11 = 0b00000000000111111111111#23 ∧ rowValue (buildH seed) 23 = 0b111111111110#12 ∧
    (∀ r c, r < 12 → c < 12 → entry (buildG seed) r c = decide (c = r)) ∧
    (∀ r c, r < 12 → c < 12 → entry (buildH seed) r c = decide (c = r))

/-- At every seed: the right block of G and the lower half of H hold in rows 0 to 10 the seed rotated left by the
row's number and 1s in row 11; the last column of the lower half is 1 in rows 0 to 10 and 0 in row 11; the left block
of G and the top block of H are identities (R81 to R84). The direction of the rotation and the trailing column are the
spec's own choices, the direction from general knowledge (D3, D4, K2), which the model follows: log entry 2. -/
def Obligations.BlocksAreRotationsOfTheSeed : Prop :=
  ∀ (seed : BitVec 11) (r : Nat), r < 12 →
    (∀ k < 11, entry (buildG seed) r (12 + k) = if r < 11 then seed.getLsbD (10 - (k + r) % 11) else true) ∧
    (∀ k < 11, entry (buildH seed) (12 + r) k = if r < 11 then seed.getLsbD (10 - (k + r) % 11) else true) ∧
    entry (buildH seed) (12 + r) 11 = decide (r < 11) ∧
    (∀ c < 12, entry (buildG seed) r c = decide (c = r)) ∧
    (∀ c < 12, entry (buildH seed) r c = decide (c = r))

/-- ENC leaves `m × G` in DOUT: element k, at bit 22 - k, is the XOR over r of `m<r> AND G[r][k]`, m<r> being DIN[11 -
r] (R95, R96). Bit 23 is zero, ERR is 0, and nothing else changes. -/
def Obligations.EncWritesTheProductWithG : Prop :=
  ∀ s : State, ∃ t, exec .enc s = .next t ∧ t = { s with dout := t.dout, errCode := 0 } ∧
    t.dout.getLsbD 23 = false ∧
    ∀ k < 23, t.dout.getLsbD (22 - k) = parity 12 fun r => s.din.getLsbD (11 - r) && entry s.g r k

/-- R97: encoding is systematic and linear: elements 0 to 11 of the codeword are the message, elements 12 to 22 its
product with the right block, the code of a sum is the sum of the codes, and the code of 0 is 0. -/
def Obligations.EncodeIsSystematicAndLinear : Prop :=
  ∀ (seed : BitVec 11) (m n : BitVec 12),
    (∀ j < 12, (encodeMessage (buildG seed) m).getLsbD (22 - j) = m.getLsbD (11 - j)) ∧
    (∀ k < 11, (encodeMessage (buildG seed) m).getLsbD (10 - k) =
      parity 12 fun r => m.getLsbD (11 - r) && bhEntry seed r k) ∧
    encodeMessage (buildG seed) (m ^^^ n) = encodeMessage (buildG seed) m ^^^ encodeMessage (buildG seed) n ∧
    encodeMessage (buildG seed) 0 = 0

/-- EXT leaves `w ++ p` in EXT and DOUT, with `p = (wt(w) + 1) mod 2` in bit 0 and w, DIN[22:0], above it (R99, R100);
so the result has odd weight. ERR is 0 and nothing else changes. -/
def Obligations.ExtAppendsTheParityBit : Prop :=
  ∀ s : State, ∃ t, exec .ext s = .next t ∧
    t = { s with extReg := t.extReg, dout := t.dout, errCode := 0 } ∧ t.dout = t.extReg ∧
    t.extReg.toNat = 2 * (s.din.toNat % 2 ^ 23) + (weight (BitVec.ofNat 23 s.din.toNat) + 1) % 2 ∧
    weight t.extReg % 2 = 1

/-- SYN leaves `w × H` in SYN and DOUT: element k, at bit 11 - k, is the XOR over r of `w<r> AND H[r][k]`, w<r> being
DIN[23 - r] (R102, R103). ERR is 0 and nothing else changes. -/
def Obligations.SynWritesTheProductWithH : Prop :=
  ∀ s : State, ∃ t, exec .syn s = .next t ∧
    t = { s with synReg := t.synReg, dout := t.dout, errCode := 0 } ∧ t.dout.toNat = t.synReg.toNat ∧
    ∀ k < 12, t.synReg.getLsbD (11 - k) = parity 24 fun r => s.din.getLsbD (23 - r) && entry s.h r k

/-- At every seed, `Syndrome([a, b]) = a ^ (b × B)` (R102). -/
def Obligations.SyndromeOfHalves : Prop :=
  ∀ (seed : BitVec 11) (a b : BitVec 12),
    syndrome (buildH seed) (pair a b) = a ^^^ vecMat b (lowerHalf (buildH seed))

/-- SRCH runs steps 3 to 7 on `S = DIN[11:0]` (R106, R112): it leaves the pattern in EPAT and DOUT, the step in CASE and
the row in IDX, with ERR 0, and changes nothing else. `b i` is row 12 + i of H and `T` is `S × B`. -/
def Obligations.SrchRunsTheSteps : Prop :=
  ∀ s : State, ∃ t, exec .srch s = .next t ∧
    t = { s with epat := t.epat, dout := t.dout, caseCode := t.caseCode, idx := t.idx, errCode := 0 } ∧
    t.dout = t.epat ∧
    ∀ (S T : BitVec 12) (b : Nat → BitVec 12), S = BitVec.ofNat 12 s.din.toNat → (∀ i, b i = rowValue s.h (12 + i)) →
      (∀ k < 12, T.getLsbD (11 - k) = parity 12 fun r => S.getLsbD (11 - r) && (b r).getLsbD (11 - k)) →
      (weight S ≤ 3 → t.epat = pair S 0 ∧ t.caseCode = 1 ∧ t.idx = 0) ∧
      (3 < weight S →
        (∀ i < 12, weight (S ^^^ b i) ≤ 2 → (∀ j < i, 2 < weight (S ^^^ b j)) →
          t.epat = pair (S ^^^ b i) (1#12 <<< (11 - i)) ∧ t.caseCode = 2 ∧ t.idx.toNat = i) ∧
        ((∀ i < 12, 2 < weight (S ^^^ b i)) →
          (weight T ≤ 3 → t.epat = pair 0 T ∧ t.caseCode = 3 ∧ t.idx = 0) ∧
          (3 < weight T →
            (∀ i < 12, weight (T ^^^ b i) ≤ 2 → (∀ j < i, 2 < weight (T ^^^ b j)) →
              t.epat = pair (1#12 <<< (11 - i)) (T ^^^ b i) ∧ t.caseCode = 4 ∧ t.idx.toNat = i) ∧
            ((∀ i < 12, 2 < weight (T ^^^ b i)) → t.epat = 0 ∧ t.caseCode = 5 ∧ t.idx = 0))))

/-- CORR leaves DIN XOR EPAT in DOUT, with ERR 0; EPAT is read and not written (R113, R115). -/
def Obligations.CorrXorsDinWithEpat : Prop :=
  ∀ s : State, exec .corr s = .next { s with dout := s.din ^^^ s.epat, errCode := 0 }

/-- DEC.R leaves the extended word in EXT and elements 0 to 11 of the received word, DIN[22:11], in DOUT, with CASE 6,
IDX 0 and ERR 0; SYN and EPAT are not written (R118, R121). -/
def Obligations.DecRawReturnsTheHeadUnmodified : Prop :=
  ∀ s : State, ∃ t, exec .decR s = .next t ∧
    t = { s with extReg := t.extReg, dout := t.dout, caseCode := 6, idx := 0, errCode := 0 } ∧
    t.dout.toNat = s.din.toNat % 2 ^ 23 / 2 ^ 11 ∧
    t.extReg.toNat = 2 * (s.din.toNat % 2 ^ 23) + (weight (BitVec.ofNat 23 s.din.toNat) + 1) % 2

/-- DEC.C leaves in EXT the extended word of DIN[22:0], in SYN its product with H, in EPAT, CASE and IDX what SRCH finds
for that syndrome, and in DOUT elements 0 to 11 of EXT XOR EPAT, with ERR 0, and changes nothing else (R117, R122). -/
def Obligations.DecCorrectedLeavesEveryStep : Prop :=
  ∀ s : State, ∃ t u, exec .decC s = .next t ∧
    t = { s with extReg := t.extReg, synReg := t.synReg, epat := t.epat, dout := t.dout, caseCode := t.caseCode,
                 idx := t.idx, errCode := 0 } ∧
    t.extReg.toNat = 2 * (s.din.toNat % 2 ^ 23) + (weight (BitVec.ofNat 23 s.din.toNat) + 1) % 2 ∧
    (∀ k < 12, t.synReg.getLsbD (11 - k) = parity 24 fun r => t.extReg.getLsbD (23 - r) && entry s.h r k) ∧
    exec .srch { s with din := BitVec.ofNat 24 t.synReg.toNat } = .next u ∧
    t.epat = u.epat ∧ t.caseCode = u.caseCode ∧ t.idx = u.idx ∧
    t.dout.toNat = (t.extReg ^^^ t.epat).toNat / 2 ^ 12

/-- R124: DEC.C leaves the same EXT, SYN, EPAT, CASE and IDX as the chain `ext; syn; srch; corr` with the host moving
each result into DIN, and the chain's final DOUT shifted right by 12. -/
def Obligations.DecCorrectedIsTheChainOfCommands : Prop :=
  ∀ (s : State) (w : BitVec 24), ∃ t1 t2 t3 t4 t,
    exec .ext { s with din := w } = .next t1 ∧
    exec .syn { t1 with din := t1.extReg } = .next t2 ∧
    exec .srch { t2 with din := BitVec.ofNat 24 t2.synReg.toNat } = .next t3 ∧
    exec .corr { t3 with din := t1.extReg } = .next t4 ∧
    exec .decC { s with din := w } = .next t ∧
    t = { s with din := w, extReg := t4.extReg, synReg := t4.synReg, epat := t4.epat, caseCode := t4.caseCode,
                 idx := t4.idx, dout := t4.dout >>> 12, errCode := 0 }

/-! ## The code -/

/-- R89: exactly 22 of the 2048 seeds are admissible, the default among them: those whose B is its own inverse and whose
codewords are at least 7 apart, some two of them 7 apart. -/
def Obligations.AdmissibleSeedsAreExactlyThese : Prop :=
  Config.admissibleSeeds.length = 22 ∧ Config.admissibleSeeds.Nodup ∧ Config.seed ∈ Config.admissibleSeeds ∧
  ∀ seed : BitVec 11, seed ∈ Config.admissibleSeeds ↔
    (∀ v : BitVec 12, vecMat (vecMat v (lowerHalf (buildH seed))) (lowerHalf (buildH seed)) = v) ∧
    (∀ m n : BitVec 12, m ≠ n → 7 ≤ weight (encodeMessage (buildG seed) m ^^^ encodeMessage (buildG seed) n)) ∧
    (∃ m n : BitVec 12, weight (encodeMessage (buildG seed) m ^^^ encodeMessage (buildG seed) n) = 7)

/-- R87 for every admissible seed: B is symmetric and its own inverse; rows 0 to 10 of G have weight 7 and row 11
weight 12; each row of G with its parity bit is the matching row of `[I_12 | B]`; and every word `[m, m × B]` has
syndrome 0. -/
def Obligations.MatricesFitTogether : Prop :=
  ∀ seed ∈ Config.admissibleSeeds,
    (∀ r c, r < 12 → c < 12 → entry (lowerHalf (buildH seed)) r c = entry (lowerHalf (buildH seed)) c r) ∧
    (∀ r, r < 12 → vecMat (rowValue (lowerHalf (buildH seed)) r) (lowerHalf (buildH seed)) = 1#12 <<< (11 - r)) ∧
    (∀ r, r < 12 → weight (rowValue (buildG seed) r) = if r < 11 then 7 else 12) ∧
    (∀ r, r < 12 → append (rowValue (buildG seed) r) (weight (rowValue (buildG seed) r) % 2 == 1) =
      pair (1#12 <<< (11 - r)) (rowValue (lowerHalf (buildH seed)) r)) ∧
    (∀ m, syndrome (buildH seed) (extendedWord (buildH seed) m) = 0)

/-- R98 with R88: in every state that meets the invariant, two different messages have codewords at least 7 apart. -/
def Obligations.CodewordsAreSevenApart : Prop :=
  ∀ s : State, s.Inv → ∀ m n : BitVec 12, m ≠ n → 7 ≤ weight (encodeMessage s.g m ^^^ encodeMessage s.g n)

/-- R98: every 23-bit word is within distance 3 of exactly one codeword. -/
def Obligations.EveryWordIsNearOneCodeword : Prop :=
  ∀ s : State, s.Inv → ∀ w : BitVec 23, ∃ m : BitVec 12, weight (w ^^^ encodeMessage s.g m) ≤ 3 ∧
    ∀ n : BitVec 12, weight (w ^^^ encodeMessage s.g n) ≤ 3 → n = m

/-- R101: an error-free codeword with its parity bit is `[m, m × B]`, of syndrome 0; the extension of an error-free
codeword is `[m, m × B]` with element 23 flipped, and that of a received word `c ^ e` is `[m, m × B]` with the error
`e ++ ((wt(e) + 1) mod 2)`, of weight `wt(e) + 1` or `wt(e)`, whichever is odd, and so at most 3 when `wt(e)` is at
most 3. -/
def Obligations.ExtensionOfAReceivedWord : Prop :=
  ∀ s : State, s.Inv → ∀ (m : BitVec 12) (e : BitVec 23),
    append (encodeMessage s.g m) (weight (encodeMessage s.g m) % 2 == 1) = extendedWord s.h m ∧
    syndrome s.h (extendedWord s.h m) = 0 ∧
    extendWord (encodeMessage s.g m) = extendedWord s.h m ^^^ 0x000001 ∧
    extendWord (encodeMessage s.g m ^^^ e) = extendedWord s.h m ^^^ extendedError e ∧
    weight (extendedError e) = (if weight e % 2 = 0 then weight e + 1 else weight e) ∧
    (weight e ≤ 3 → weight (extendedError e) ≤ 3)

/-- R104: the syndrome is linear; its kernel is exactly the words `[m, m × B]`, all of even weight; the extension of a
23-bit word never has syndrome 0; and that of an error-free codeword has syndrome 0xFFE. -/
def Obligations.SyndromeLaws : Prop :=
  ∀ s : State, s.Inv →
    (∀ w1 w2, syndrome s.h (w1 ^^^ w2) = syndrome s.h w1 ^^^ syndrome s.h w2) ∧
    (∀ w, syndrome s.h w = 0 ↔ ∃ m, w = extendedWord s.h m) ∧
    (∀ m, weight (extendedWord s.h m) % 2 = 0) ∧
    (∀ w, weight w % 2 = 1 → syndrome s.h w ≠ 0) ∧
    (∀ c : BitVec 23, weight (extendWord c) % 2 = 1 ∧ syndrome s.h (extendWord c) ≠ 0) ∧
    (∀ m, syndrome s.h (extendWord (encodeMessage s.g m)) = 0xFFE)

/-- R108: at every admissible seed at most one row passes the test of step 4, and at most one that of step 6, so the
order of the scan cannot change a result. -/
def Obligations.AtMostOneRowMatches : Prop :=
  ∀ s : State, s.Inv → ∀ (v : BitVec 12) (i j : Nat), i < 12 → j < 12 →
    weight (v ^^^ rowValue s.h (12 + i)) ≤ 2 → weight (v ^^^ rowValue s.h (12 + j)) ≤ 2 → i = j

/-- R107: when SRCH does not end in step 7, EPAT is the coset leader of the syndrome in DIN: it has that syndrome and
weight at most 3, no other pattern of weight at most 3 has it, and its errors lie where the step says. -/
def Obligations.SrchFindsTheCosetLeader : Prop :=
  ∀ s : State, s.Inv → ∃ t, exec .srch s = .next t ∧ (t.caseCode ≠ 5 →
    syndrome s.h t.epat = BitVec.ofNat 12 s.din.toNat ∧ weight t.epat ≤ 3 ∧
    (∀ e : BitVec 24, weight e ≤ 3 → syndrome s.h e = BitVec.ofNat 12 s.din.toNat → e = t.epat) ∧
    (t.caseCode = 1 → t.epat.toNat % 2 ^ 12 = 0) ∧
    (t.caseCode = 2 → t.epat.toNat % 2 ^ 12 = 2 ^ (11 - t.idx.toNat) ∧ weight (t.epat >>> 12) ≤ 2) ∧
    (t.caseCode = 3 → t.epat.toNat / 2 ^ 12 = 0) ∧
    (t.caseCode = 4 → t.epat.toNat / 2 ^ 12 = 2 ^ (11 - t.idx.toNat) ∧ weight (t.epat <<< 12) ≤ 2))

/-- R111: for every 24-bit e of weight at most 3, SRCH of its syndrome finds e, with CASE 1 to 4, at each of the 22
admissible seeds. -/
def Obligations.SrchFindsEveryPatternOfWeightThree : Prop :=
  ∀ (s : State) (e : BitVec 24), s.Inv → weight e ≤ 3 → BitVec.ofNat 12 s.din.toNat = syndrome s.h e →
    ∃ t, exec .srch s = .next t ∧ t.epat = e ∧ 1 ≤ t.caseCode.toNat ∧ t.caseCode.toNat ≤ 4

/-- R114: correcting twice is correcting nothing, a zero pattern corrects nothing, and a word corrected with the pattern
steps 3 to 6 find for its syndrome has syndrome 0: it is a word of the extended code. -/
def Obligations.CorrectorLaws : Prop :=
  ∀ (s : State) (w e : BitVec 24), s.Inv →
    correct (correct w e) e = w ∧ correct w 0 = w ∧
    ((search s.h (syndrome s.h w)).caseCode ≠ 5 →
      syndrome s.h (correct w (search s.h (syndrome s.h w)).pattern) = 0 ∧
      ∃ m, correct w (search s.h (syndrome s.h w)).pattern = extendedWord s.h m)

/-- R123: DEC.C ends with CASE 1 to 4 and UNC 0 for every DIN, so of the two commands that search only SRCH can end in
step 7, and only on a syndrome of even weight. -/
def Obligations.DecCorrectedNeverReportsUncorrectable : Prop :=
  ∀ s : State, s.Inv →
    (∃ t, exec .decC s = .next t ∧ 1 ≤ t.caseCode.toNat ∧ t.caseCode.toNat ≤ 4 ∧ t.unc = false) ∧
    (∃ t, exec .srch s = .next t ∧ (t.unc = true → weight (BitVec.ofNat 12 s.din.toNat) % 2 = 0))

/-- R132: only SRCH leaves UNC at 1 where it was 0 before, and then it completes with ERR 0, EPAT 0 and CASE 5. -/
def Obligations.OnlySrchReportsUncorrectable : Prop :=
  ∀ (i : Instr) (s t : State), s.Inv → exec i s = .next t → s.unc = false → t.unc = true →
    i = .srch ∧ t.errCode = 0 ∧ t.epat = 0 ∧ t.caseCode = 5

/-- R119: for every message m and every error e of weight at most 3, DEC.C of `Encode(m) ^ e` returns m with CASE 1 to 4
and EPAT `e ++ ((wt(e) + 1) mod 2)`; without an error EPAT is 0x000001, CASE 2 and IDX 11. -/
def Obligations.DecCorrectedRecoversTheMessage : Prop :=
  ∀ (s : State) (m : BitVec 12) (e : BitVec 23), s.Inv → weight e ≤ 3 →
    BitVec.ofNat 23 s.din.toNat = encodeMessage s.g m ^^^ e →
    ∃ t, exec .decC s = .next t ∧ t.dout.toNat = m.toNat ∧ 1 ≤ t.caseCode.toNat ∧ t.caseCode.toNat ≤ 4 ∧
      t.epat = extendedError e ∧ (e = 0 → t.epat = 0x000001 ∧ t.caseCode = 2 ∧ t.idx = 11)

/-- R120: with an error of weight 4 or more DEC.C returns the message of the one codeword within distance 3 of the
received word, which is not the message sent. -/
def Obligations.FourOrMoreErrorsGiveAnotherMessage : Prop :=
  ∀ (s : State) (m : BitVec 12) (e : BitVec 23), s.Inv → 4 ≤ weight e →
    BitVec.ofNat 23 s.din.toNat = encodeMessage s.g m ^^^ e →
    ∃ t n, exec .decC s = .next t ∧ t.dout.toNat = n.toNat ∧ n ≠ m ∧
      weight (encodeMessage s.g m ^^^ e ^^^ encodeMessage s.g n) ≤ 3 ∧
      ∀ k : BitVec 12, weight (encodeMessage s.g m ^^^ e ^^^ encodeMessage s.g k) ≤ 3 → k = n

/-- Through the register window (R78 with R119): the accesses of `encode V` and a read of DOUT answer the codeword,
and those of `decode V` and a read of DOUT answer the message, for a received word with at most three errors. The line
`decode.raw V` is not in this statement. -/
def Obligations.EncodeAndDecodeThroughTheWindow : Prop :=
  ∀ (s : State) (rest : List HostEvent) (m : BitVec 12) (e : BitVec 23), s.Inv → s.resetAsserted = false →
    (∀ v : Word, v.toNat % 2 ^ 12 = m.toNat →
      s.pending = (AsmLine.encode v).events ++ (AsmLine.rd .dout).events ++ rest →
      ∃ t, core.run 3 s = .next t ∧ t.pending = rest ∧
        t.replies = .data ((encodeMessage s.g m).setWidth 32) :: .written :: .written :: s.replies) ∧
    (∀ v : Word, weight e ≤ 3 → v.toNat % 2 ^ 23 = (encodeMessage s.g m ^^^ e).toNat →
      s.pending = (AsmLine.decode v).events ++ (AsmLine.rd .dout).events ++ rest →
      ∃ t, core.run 3 s = .next t ∧ t.pending = rest ∧
        t.replies = .data (m.setWidth 32) :: .written :: .written :: s.replies)
end

