-- ==== Sys2Proof/Laws/Gf2.lean ====
section
/-! SUPPORT. The laws of vectors over GF(2): elements determine a vector, weights are bounded and add up, and the
vector-matrix product is linear in its vector. -/

namespace Sys2Proof.Machine

theorem elem_ext {n : Nat} {v w : BitVec n} (h : ∀ j < n, elem v j = elem w j) : v = w :=
  BitVec.eq_of_getMsbD_eq h

theorem xorSum_congr {n : Nat} {f g : Nat → Bool} (h : ∀ j < n, f j = g j) : xorSum n f = xorSum n g := by
  induction n with
  | zero => rfl
  | succ n ih => simp only [xorSum, ih fun j hj => h j (by omega), h n (by omega)]

theorem xorSum_xor (n : Nat) (f g : Nat → Bool) :
    xorSum n (fun j => f j ^^ g j) = (xorSum n f ^^ xorSum n g) := by
  induction n with
  | zero => rfl
  | succ n ih => simp only [xorSum, ih]; cases xorSum n f <;> cases xorSum n g <;> cases f n <;> cases g n <;> rfl

@[simp] theorem xorSum_false (n : Nat) : xorSum n (fun _ => false) = false := by
  induction n with
  | zero => rfl
  | succ n ih => simp [xorSum, ih]

/-- A sum in which one term alone can be 1. -/
theorem xorSum_single {n i : Nat} (hi : i < n) (f : Nat → Bool) (h : ∀ j < n, j ≠ i → f j = false) :
    xorSum n f = f i := by
  induction n with
  | zero => omega
  | succ n ih =>
    rcases Nat.lt_succ_iff_lt_or_eq.mp hi with hlt | rfl
    · simp only [xorSum, ih hlt fun j hj hne => h j (by omega) hne, h n (by omega) (by omega), Bool.xor_false]
    · have hz : xorSum i f = false := by
        rw [xorSum_congr (g := fun _ => false) fun j hj => h j (by omega) (by omega), xorSum_false]
      simp only [xorSum, hz, Bool.false_xor]

theorem xorSum_comm (n m : Nat) (f : Nat → Nat → Bool) :
    xorSum n (fun r => xorSum m (f r)) = xorSum m fun c => xorSum n fun r => f r c := by
  induction n with
  | zero => simp [xorSum]
  | succ n ih => simp only [xorSum, ih, xorSum_xor]

theorem and_xorSum (b : Bool) (n : Nat) (f : Nat → Bool) :
    (b && xorSum n f) = xorSum n fun j => b && f j := by
  cases b <;> simp

theorem xorSum_and (b : Bool) (n : Nat) (f : Nat → Bool) :
    (xorSum n f && b) = xorSum n fun j => f j && b := by
  cases b <;> simp

/-- A sum cut in two. -/
theorem xorSum_add (n m : Nat) (f : Nat → Bool) :
    xorSum (n + m) f = (xorSum n f ^^ xorSum m fun j => f (n + j)) := by
  induction m with
  | zero => simp [xorSum]
  | succ m ih => rw [← Nat.add_assoc]; simp only [xorSum, ih, Bool.xor_assoc]

@[simp] theorem elem_ofElems (n : Nat) (f : Nat → Bool) (j : Nat) :
    elem (ofElems n f) j = (decide (j < n) && f j) := by
  induction n with
  | zero => simp [ofElems]
  | succ n ih =>
    simp only [ofElems, elem, BitVec.getMsbD_concat]
    by_cases h : j < n
    · simp only [elem] at ih; simp [ih, h, Nat.lt_succ_of_lt h]
    · by_cases h' : j = n
      · subst h'; simp
      · simp [h, h', show ¬ j < n + 1 by omega]

theorem elem_xor {n : Nat} (v w : BitVec n) (j : Nat) : elem (v ^^^ w) j = (elem v j ^^ elem w j) :=
  BitVec.getMsbD_xor

theorem elem_vecMat {n m : Nat} (v : BitVec n) (M : BitMatrix n m) {c : Nat} (hc : c < m) :
    elem (vecMat v M) c = xorSum n fun r => elem v r && elem (matRow M r) c := by
  simp only [vecMat, elem_ofElems, hc, decide_true, Bool.true_and]

/-- The product is linear (R97, R104). -/
theorem vecMat_xor {n m : Nat} (v w : BitVec n) (M : BitMatrix n m) :
    vecMat (v ^^^ w) M = vecMat v M ^^^ vecMat w M := by
  refine elem_ext fun c hc => ?_
  rw [elem_xor, elem_vecMat _ _ hc, elem_vecMat _ _ hc, elem_vecMat _ _ hc, ← xorSum_xor]
  refine xorSum_congr fun r _ => ?_
  rw [elem_xor]
  cases elem v r <;> cases elem w r <;> simp

@[simp] theorem vecMat_zero {n m : Nat} (M : BitMatrix n m) : vecMat 0 M = 0 := by
  refine elem_ext fun c hc => ?_
  rw [elem_vecMat _ _ hc]
  simp

theorem matRow_ofFn {n m : Nat} (f : Fin n → BitVec m) {r : Nat} (h : r < n) :
    matRow (Vector.ofFn f) r = f ⟨r, h⟩ := by
  simp [matRow, h]

theorem matRow_eq {n m : Nat} (M : BitMatrix n m) {r : Nat} (h : r < n) : matRow M r = M[r] := by
  simp [matRow, h]

theorem elem_unit12 {i j : Nat} (hi : i < 12) (hj : j < 12) : elem (unit12 i) j = decide (j = i) := by
  interval_cases i <;> interval_cases j <;> rfl

/-- A unit vector picks its row (R16, R17). -/
theorem vecMat_unit12 {m : Nat} (M : BitMatrix 12 m) {i : Nat} (hi : i < 12) : vecMat (unit12 i) M = matRow M i := by
  refine elem_ext fun c hc => ?_
  rw [elem_vecMat _ _ hc, xorSum_single hi _ fun j hj hne => by rw [elem_unit12 hi hj]; simp [hne]]
  rw [elem_unit12 hi hi]; simp

theorem countOnes_congr {n : Nat} {f g : Nat → Bool} (h : ∀ j < n, f j = g j) : countOnes n f = countOnes n g := by
  induction n with
  | zero => rfl
  | succ n ih => simp only [countOnes, ih fun j hj => h j (by omega), h n (by omega)]

theorem countOnes_add (n m : Nat) (f : Nat → Bool) :
    countOnes (n + m) f = countOnes n f + countOnes m fun j => f (n + j) := by
  induction m with
  | zero => simp [countOnes]
  | succ m ih => rw [← Nat.add_assoc]; simp only [countOnes, ih, Nat.add_assoc]

theorem countOnes_le (n : Nat) (f : Nat → Bool) : countOnes n f ≤ n := by
  induction n with
  | zero => exact Nat.le_refl _
  | succ n ih => have := Bool.toNat_le (f n); simp only [countOnes]; omega

theorem countOnes_xor_le (n : Nat) (f g : Nat → Bool) :
    countOnes n (fun j => f j ^^ g j) ≤ countOnes n f + countOnes n g := by
  induction n with
  | zero => exact Nat.le_refl _
  | succ n ih => simp only [countOnes]; cases f n <;> cases g n <;> simp <;> omega

theorem countOnes_xor_mod (n : Nat) (f g : Nat → Bool) :
    countOnes n (fun j => f j ^^ g j) % 2 = (countOnes n f + countOnes n g) % 2 := by
  induction n with
  | zero => rfl
  | succ n ih => simp only [countOnes]; cases f n <;> cases g n <;> simp <;> omega

theorem countOnes_eq_zero {n : Nat} {f : Nat → Bool} (h : countOnes n f = 0) : ∀ j < n, f j = false := by
  induction n with
  | zero => intro j hj; omega
  | succ n ih =>
    simp only [countOnes, Nat.add_eq_zero_iff] at h
    intro j hj
    rcases Nat.lt_succ_iff_lt_or_eq.mp hj with hlt | rfl
    · exact ih h.1 j hlt
    · cases hf : f j
      · rfl
      · simp [hf] at h

theorem wt_le {n : Nat} (v : BitVec n) : wt v ≤ n := countOnes_le n _

@[simp] theorem wt_zero {n : Nat} : wt (0#n) = 0 := by
  rw [wt, countOnes_congr (g := fun _ => false) (by simp)]
  induction n with
  | zero => rfl
  | succ n ih => simp [countOnes, ih]

theorem wt_eq_zero {n : Nat} {v : BitVec n} (h : wt v = 0) : v = 0 :=
  elem_ext fun j hj => by rw [countOnes_eq_zero h j hj]; simp

/-- Weights obey the triangle inequality. -/
theorem wt_xor_le {n : Nat} (v w : BitVec n) : wt (v ^^^ w) ≤ wt v + wt w := by
  rw [wt, countOnes_congr fun j _ => elem_xor v w j]; exact countOnes_xor_le n _ _

/-- The parity of a weight is linear. -/
theorem wt_xor_mod {n : Nat} (v w : BitVec n) : wt (v ^^^ w) % 2 = (wt v + wt w) % 2 := by
  rw [wt, countOnes_congr fun j _ => elem_xor v w j]; exact countOnes_xor_mod n _ _

theorem elem_joinHalves_left (a b : BitVec 12) {j : Nat} (h : j < 12) : elem (joinHalves a b) j = elem a j := by
  simp only [joinHalves, elem, BitVec.getMsbD_or, BitVec.getMsbD_shiftLeft, BitVec.getMsbD_setWidth]
  simp [Nat.not_le.mpr h]

theorem elem_joinHalves_right (a b : BitVec 12) (j : Nat) : elem (joinHalves a b) (12 + j) = elem b j := by
  simp only [joinHalves, elem, BitVec.getMsbD_or, BitVec.getMsbD_shiftLeft, BitVec.getMsbD_setWidth]
  simp

theorem wt_joinHalves (a b : BitVec 12) : wt (joinHalves a b) = wt a + wt b := by
  show countOnes (12 + 12) (elem (joinHalves a b)) = countOnes 12 (elem a) + countOnes 12 (elem b)
  rw [countOnes_add, countOnes_congr fun j hj => elem_joinHalves_left a b hj,
    countOnes_congr fun j _ => elem_joinHalves_right a b j]

/-- A 24-bit vector is determined by its halves. -/
theorem halves_ext {v w : BitVec 24} (h : ∀ j < 12, elem v j = elem w j)
    (h' : ∀ j < 12, elem v (12 + j) = elem w (12 + j)) : v = w :=
  elem_ext fun j hj => by
    by_cases hlt : j < 12
    · exact h j hlt
    · have := h' (j - 12) (by omega)
      rwa [Nat.add_sub_cancel' (Nat.not_lt.mp hlt)] at this

theorem joinHalves_xor (a b c d : BitVec 12) :
    joinHalves a b ^^^ joinHalves c d = joinHalves (a ^^^ c) (b ^^^ d) := by
  refine halves_ext (fun j hj => ?_) fun j _ => ?_
  · rw [elem_xor, elem_joinHalves_left _ _ hj, elem_joinHalves_left _ _ hj, elem_joinHalves_left _ _ hj, elem_xor]
  · rw [elem_xor, elem_joinHalves_right, elem_joinHalves_right, elem_joinHalves_right, elem_xor]

theorem elem_appendBit_left (w : BitVec 23) (p : Bool) {j : Nat} (h : j < 23) : elem (appendBit w p) j = elem w j := by
  simp only [appendBit, elem, BitVec.getMsbD_or, BitVec.getMsbD_shiftLeft, BitVec.getMsbD_setWidth]
  simp [Nat.not_le.mpr h]

theorem elem_appendBit_right (w : BitVec 23) (p : Bool) : elem (appendBit w p) 23 = p := by
  simp [appendBit, elem]

theorem wt_appendBit (w : BitVec 23) (p : Bool) : wt (appendBit w p) = wt w + p.toNat := by
  show countOnes 23 (elem (appendBit w p)) + (elem (appendBit w p) 23).toNat = _
  rw [countOnes_congr fun j hj => elem_appendBit_left w p hj, elem_appendBit_right, wt]

theorem appendBit_xor (v w : BitVec 23) (p q : Bool) :
    appendBit v p ^^^ appendBit w q = appendBit (v ^^^ w) (p ^^ q) :=
  elem_ext fun j hj => by
    rcases Nat.lt_succ_iff_lt_or_eq.mp hj with hlt | rfl
    · rw [elem_xor, elem_appendBit_left _ _ hlt, elem_appendBit_left _ _ hlt, elem_appendBit_left _ _ hlt, elem_xor]
    · rw [elem_xor, elem_appendBit_right, elem_appendBit_right, elem_appendBit_right]

theorem wt_unit12 {i : Nat} (hi : i < 12) : wt (unit12 i) = 1 := by
  interval_cases i <;> rfl

/-- The scan answers a row at which the test holds and before which it does not (R108). -/
theorem firstMatch_some {n i : Nat} {p : Nat → Bool} :
    firstMatch n p = some i ↔ i < n ∧ p i = true ∧ ∀ j < i, p j = false := by
  simp only [firstMatch, List.find?_range_eq_some, Bool.not_eq_true', List.mem_range]
  tauto

theorem firstMatch_none {n : Nat} {p : Nat → Bool} : firstMatch n p = none ↔ ∀ i < n, p i = false := by
  simp [firstMatch]

end Sys2Proof.Machine
end

