-- ==== Sys2Proof/Laws/Builder.lean ====
section
/-! SUPPORT. The entries of the built matrices at every seed (R81 to R84), and the lower half of H. -/

namespace Sys2Proof.Machine

variable (seed : BitVec 11)

theorem elem_buildG {r c : Nat} (hr : r < 12) (hc : c < 23) : elem (matRow (buildG seed) r) c = gEntry seed r c := by
  rw [buildG, matRow_ofFn _ hr, elem_ofElems]; simp [hc]

theorem elem_buildH {r c : Nat} (hr : r < 24) (hc : c < 12) : elem (matRow (buildH seed) r) c = hEntry seed r c := by
  rw [buildH, matRow_ofFn _ hr, elem_ofElems]; simp [hc]

theorem matRow_lowerHalf (h : BitMatrix 24 12) {i : Nat} (hi : i < 12) : matRow (lowerHalf h) i = bRow h i := by
  rw [lowerHalf, matRow_ofFn _ hi]

/-- The top half of H is the identity (R84). -/
theorem matRow_top {r : Nat} (hr : r < 12) : matRow (buildH seed) r = unit12 r :=
  elem_ext fun c hc => by rw [elem_buildH _ (by omega) hc, elem_unit12 hr hc, hEntry, if_pos hr]

/-- Row `b_r` of B (R83). -/
theorem bRow_buildH {r : Nat} (hr : r < 12) : bRow (buildH seed) r = ofElems 12 (bEntry seed r) :=
  elem_ext fun c hc => by
    rw [bRow, elem_buildH _ (by omega) hc, elem_ofElems, hEntry, if_neg (by omega)]; simp [hc]

/-- A matrix whose rows its own product takes to the unit vectors is its own inverse. -/
theorem vecMat_self_inverse (L : BitMatrix 12 12) (hr : ∀ i < 12, vecMat (matRow L i) L = unit12 i) (v : BitVec 12) :
    vecMat (vecMat v L) L = v := by
  refine elem_ext fun c hc => ?_
  rw [elem_vecMat _ _ hc]
  rw [xorSum_congr (g := fun k => xorSum 12 fun r => elem v r && (elem (matRow L r) k && elem (matRow L k) c))
    fun k hk => by rw [elem_vecMat _ _ hk, xorSum_and]; simp [Bool.and_assoc]]
  rw [xorSum_comm, xorSum_congr (g := fun r => elem v r && decide (c = r)) fun r hrr => by
    rw [← and_xorSum, ← elem_vecMat _ _ hc, hr r hrr, elem_unit12 hrr hc]]
  rw [xorSum_single hc _ fun j _ hne => by simp [Ne.symm hne]]; simp

/-- A row found by the scan passes its test. -/
theorem matchRow_some {h : BitMatrix 24 12} {v : BitVec 12} {i : Nat} (hm : matchRow h v = some i) :
    i < 12 ∧ wt (v ^^^ bRow h i) ≤ 2 ∧ ∀ j < i, 2 < wt (v ^^^ bRow h j) := by
  have := firstMatch_some.1 hm
  simpa using this

/-- No row passes when the scan finds none. -/
theorem matchRow_none {h : BitMatrix 24 12} {v : BitVec 12} (hm : matchRow h v = none) {i : Nat} (hi : i < 12) :
    2 < wt (v ^^^ bRow h i) := by
  have := firstMatch_none.1 hm i hi
  simpa using this

end Sys2Proof.Machine
end

