-- ==== Sys2Proof/Laws/Decode.lean ====
section
/-! SUPPORT. The decoder's checks one by one: what passing or failing each says of a word (R60). -/

namespace Sys2Proof

variable {w : Word}

theorem decode_reservedOp (h : 9 ≤ opOf w) : decode w = .ok (.reserved (w.extractLsb' 0 4) (w.extractLsb' 4 28)) :=
  if_pos h

/-- A word that passes the first six checks, those on its fields, but perhaps not the last, LEN. -/
def FieldsLegal (w : Word) : Prop :=
  opOf w < 9 ∧ reservedOf w = 0 ∧ (modeOf w = true → opOf w = 2) ∧ (rowOf w ≠ 0 → opOf w = 7 ∨ opOf w = 8) ∧
  (opOf w = 7 → (rowOf w).toNat < 12) ∧ (opOf w = 8 → (rowOf w).toNat < 24)

/-- The decoder on a word whose fields are legal. -/
theorem decode_of_fieldsLegal (h : FieldsLegal w) :
    decode w = if lenOf w = expLen (opOf w) then operationOf (opOf w) (modeOf w) (rowOf w) else .error .invalidLength := by
  obtain ⟨h1, h2, h3, h4, h5, h6⟩ := h
  simp only [decode]
  rw [if_neg (by omega), if_neg (by simpa using h2), if_neg (fun hm => hm.2 (h3 hm.1)),
    if_neg (fun hr => by have := h4 hr.1; omega), if_neg (fun hr => by have := h5 hr.1; omega),
    if_neg (fun hr => by have := h6 hr.1; omega)]
  split <;> simp_all

/-- The decoder rejects a word whose fields are not legal as illegal, but for a reserved OP, which is the table's row. -/
theorem decode_of_not_fieldsLegal (h : ¬ FieldsLegal w) (hop : opOf w < 9) : decode w = .error .illegalCommand := by
  simp only [decode]
  rw [if_neg (by omega)]
  by_contra hd
  refine h ⟨hop, ?_, fun hm => ?_, fun hr => ?_, fun h7 => ?_, fun h8 => ?_⟩ <;> by_contra hx <;> apply hd
  · rw [if_pos hx]
  · rw [if_pos (c := modeOf w = true ∧ opOf w ≠ 2) ⟨hm, hx⟩]; simp
  · rw [if_pos (c := rowOf w ≠ 0 ∧ opOf w ≠ 7 ∧ opOf w ≠ 8) ⟨hr, by tauto, by tauto⟩]; simp
  · rw [if_pos (c := opOf w = 7 ∧ 12 ≤ (rowOf w).toNat) ⟨h7, by omega⟩]; simp
  · rw [if_pos (c := opOf w = 8 ∧ 24 ≤ (rowOf w).toNat) ⟨h8, by omega⟩]; simp

end Sys2Proof
end

