-- ==== Sys2Proof/Laws/State.lean ====
section
/-! SUPPORT. What each update of State does to each field, and that the updates of the host's side and of the block do not
meet: later proofs use these and unfold no record update. -/

namespace Sys2Proof.Machine.State

variable (s : State)

@[simp] theorem raise_din (e : CommandError) : (s.raise e).din = s.din := rfl
@[simp] theorem raise_epat (e : CommandError) : (s.raise e).epat = s.epat := rfl
@[simp] theorem raise_dout (e : CommandError) : (s.raise e).dout = s.dout := rfl
@[simp] theorem raise_extReg (e : CommandError) : (s.raise e).extReg = s.extReg := rfl
@[simp] theorem raise_synReg (e : CommandError) : (s.raise e).synReg = s.synReg := rfl
@[simp] theorem raise_errCode (e : CommandError) : (s.raise e).errCode = errCodeOf e := rfl
@[simp] theorem raise_caseCode (e : CommandError) : (s.raise e).caseCode = s.caseCode := rfl
@[simp] theorem raise_idx (e : CommandError) : (s.raise e).idx = s.idx := rfl
@[simp] theorem raise_g (e : CommandError) : (s.raise e).g = s.g := rfl
@[simp] theorem raise_h (e : CommandError) : (s.raise e).h = s.h := rfl
@[simp] theorem raise_resetAsserted (e : CommandError) : (s.raise e).resetAsserted = s.resetAsserted := rfl
@[simp] theorem raise_pending (e : CommandError) : (s.raise e).pending = s.pending := rfl
@[simp] theorem raise_replies (e : CommandError) : (s.raise e).replies = s.replies := rfl
@[simp] theorem raise_cutCount (e : CommandError) : (s.raise e).cutCount = s.cutCount := rfl

@[simp] theorem complete_din : s.complete.din = s.din := rfl
@[simp] theorem complete_epat : s.complete.epat = s.epat := rfl
@[simp] theorem complete_dout : s.complete.dout = s.dout := rfl
@[simp] theorem complete_extReg : s.complete.extReg = s.extReg := rfl
@[simp] theorem complete_synReg : s.complete.synReg = s.synReg := rfl
@[simp] theorem complete_errCode : s.complete.errCode = errNone := rfl
@[simp] theorem complete_caseCode : s.complete.caseCode = s.caseCode := rfl
@[simp] theorem complete_idx : s.complete.idx = s.idx := rfl
@[simp] theorem complete_g : s.complete.g = s.g := rfl
@[simp] theorem complete_h : s.complete.h = s.h := rfl
@[simp] theorem complete_resetAsserted : s.complete.resetAsserted = s.resetAsserted := rfl
@[simp] theorem complete_pending : s.complete.pending = s.pending := rfl
@[simp] theorem complete_replies : s.complete.replies = s.replies := rfl
@[simp] theorem complete_cutCount : s.complete.cutCount = s.cutCount := rfl

@[simp] theorem setDin_din (v : BitVec 24) : (s.setDin v).din = v := rfl
@[simp] theorem setDin_epat (v : BitVec 24) : (s.setDin v).epat = s.epat := rfl
@[simp] theorem setDin_dout (v : BitVec 24) : (s.setDin v).dout = s.dout := rfl
@[simp] theorem setDin_extReg (v : BitVec 24) : (s.setDin v).extReg = s.extReg := rfl
@[simp] theorem setDin_synReg (v : BitVec 24) : (s.setDin v).synReg = s.synReg := rfl
@[simp] theorem setDin_errCode (v : BitVec 24) : (s.setDin v).errCode = s.errCode := rfl
@[simp] theorem setDin_caseCode (v : BitVec 24) : (s.setDin v).caseCode = s.caseCode := rfl
@[simp] theorem setDin_idx (v : BitVec 24) : (s.setDin v).idx = s.idx := rfl
@[simp] theorem setDin_g (v : BitVec 24) : (s.setDin v).g = s.g := rfl
@[simp] theorem setDin_h (v : BitVec 24) : (s.setDin v).h = s.h := rfl
@[simp] theorem setDin_resetAsserted (v : BitVec 24) : (s.setDin v).resetAsserted = s.resetAsserted := rfl
@[simp] theorem setDin_pending (v : BitVec 24) : (s.setDin v).pending = s.pending := rfl
@[simp] theorem setDin_replies (v : BitVec 24) : (s.setDin v).replies = s.replies := rfl
@[simp] theorem setDin_cutCount (v : BitVec 24) : (s.setDin v).cutCount = s.cutCount := rfl

@[simp] theorem setEpat_din (v : BitVec 24) : (s.setEpat v).din = s.din := rfl
@[simp] theorem setEpat_epat (v : BitVec 24) : (s.setEpat v).epat = v := rfl
@[simp] theorem setEpat_dout (v : BitVec 24) : (s.setEpat v).dout = s.dout := rfl
@[simp] theorem setEpat_extReg (v : BitVec 24) : (s.setEpat v).extReg = s.extReg := rfl
@[simp] theorem setEpat_synReg (v : BitVec 24) : (s.setEpat v).synReg = s.synReg := rfl
@[simp] theorem setEpat_errCode (v : BitVec 24) : (s.setEpat v).errCode = s.errCode := rfl
@[simp] theorem setEpat_caseCode (v : BitVec 24) : (s.setEpat v).caseCode = s.caseCode := rfl
@[simp] theorem setEpat_idx (v : BitVec 24) : (s.setEpat v).idx = s.idx := rfl
@[simp] theorem setEpat_g (v : BitVec 24) : (s.setEpat v).g = s.g := rfl
@[simp] theorem setEpat_h (v : BitVec 24) : (s.setEpat v).h = s.h := rfl
@[simp] theorem setEpat_resetAsserted (v : BitVec 24) : (s.setEpat v).resetAsserted = s.resetAsserted := rfl
@[simp] theorem setEpat_pending (v : BitVec 24) : (s.setEpat v).pending = s.pending := rfl
@[simp] theorem setEpat_replies (v : BitVec 24) : (s.setEpat v).replies = s.replies := rfl
@[simp] theorem setEpat_cutCount (v : BitVec 24) : (s.setEpat v).cutCount = s.cutCount := rfl

@[simp] theorem setDout_din (v : BitVec 24) : (s.setDout v).din = s.din := rfl
@[simp] theorem setDout_epat (v : BitVec 24) : (s.setDout v).epat = s.epat := rfl
@[simp] theorem setDout_dout (v : BitVec 24) : (s.setDout v).dout = v := rfl
@[simp] theorem setDout_extReg (v : BitVec 24) : (s.setDout v).extReg = s.extReg := rfl
@[simp] theorem setDout_synReg (v : BitVec 24) : (s.setDout v).synReg = s.synReg := rfl
@[simp] theorem setDout_errCode (v : BitVec 24) : (s.setDout v).errCode = s.errCode := rfl
@[simp] theorem setDout_caseCode (v : BitVec 24) : (s.setDout v).caseCode = s.caseCode := rfl
@[simp] theorem setDout_idx (v : BitVec 24) : (s.setDout v).idx = s.idx := rfl
@[simp] theorem setDout_g (v : BitVec 24) : (s.setDout v).g = s.g := rfl
@[simp] theorem setDout_h (v : BitVec 24) : (s.setDout v).h = s.h := rfl
@[simp] theorem setDout_resetAsserted (v : BitVec 24) : (s.setDout v).resetAsserted = s.resetAsserted := rfl
@[simp] theorem setDout_pending (v : BitVec 24) : (s.setDout v).pending = s.pending := rfl
@[simp] theorem setDout_replies (v : BitVec 24) : (s.setDout v).replies = s.replies := rfl
@[simp] theorem setDout_cutCount (v : BitVec 24) : (s.setDout v).cutCount = s.cutCount := rfl

@[simp] theorem setExt_din (v : BitVec 24) : (s.setExt v).din = s.din := rfl
@[simp] theorem setExt_epat (v : BitVec 24) : (s.setExt v).epat = s.epat := rfl
@[simp] theorem setExt_dout (v : BitVec 24) : (s.setExt v).dout = s.dout := rfl
@[simp] theorem setExt_extReg (v : BitVec 24) : (s.setExt v).extReg = v := rfl
@[simp] theorem setExt_synReg (v : BitVec 24) : (s.setExt v).synReg = s.synReg := rfl
@[simp] theorem setExt_errCode (v : BitVec 24) : (s.setExt v).errCode = s.errCode := rfl
@[simp] theorem setExt_caseCode (v : BitVec 24) : (s.setExt v).caseCode = s.caseCode := rfl
@[simp] theorem setExt_idx (v : BitVec 24) : (s.setExt v).idx = s.idx := rfl
@[simp] theorem setExt_g (v : BitVec 24) : (s.setExt v).g = s.g := rfl
@[simp] theorem setExt_h (v : BitVec 24) : (s.setExt v).h = s.h := rfl
@[simp] theorem setExt_resetAsserted (v : BitVec 24) : (s.setExt v).resetAsserted = s.resetAsserted := rfl
@[simp] theorem setExt_pending (v : BitVec 24) : (s.setExt v).pending = s.pending := rfl
@[simp] theorem setExt_replies (v : BitVec 24) : (s.setExt v).replies = s.replies := rfl
@[simp] theorem setExt_cutCount (v : BitVec 24) : (s.setExt v).cutCount = s.cutCount := rfl

@[simp] theorem setSyn_din (v : BitVec 12) : (s.setSyn v).din = s.din := rfl
@[simp] theorem setSyn_epat (v : BitVec 12) : (s.setSyn v).epat = s.epat := rfl
@[simp] theorem setSyn_dout (v : BitVec 12) : (s.setSyn v).dout = s.dout := rfl
@[simp] theorem setSyn_extReg (v : BitVec 12) : (s.setSyn v).extReg = s.extReg := rfl
@[simp] theorem setSyn_synReg (v : BitVec 12) : (s.setSyn v).synReg = v := rfl
@[simp] theorem setSyn_errCode (v : BitVec 12) : (s.setSyn v).errCode = s.errCode := rfl
@[simp] theorem setSyn_caseCode (v : BitVec 12) : (s.setSyn v).caseCode = s.caseCode := rfl
@[simp] theorem setSyn_idx (v : BitVec 12) : (s.setSyn v).idx = s.idx := rfl
@[simp] theorem setSyn_g (v : BitVec 12) : (s.setSyn v).g = s.g := rfl
@[simp] theorem setSyn_h (v : BitVec 12) : (s.setSyn v).h = s.h := rfl
@[simp] theorem setSyn_resetAsserted (v : BitVec 12) : (s.setSyn v).resetAsserted = s.resetAsserted := rfl
@[simp] theorem setSyn_pending (v : BitVec 12) : (s.setSyn v).pending = s.pending := rfl
@[simp] theorem setSyn_replies (v : BitVec 12) : (s.setSyn v).replies = s.replies := rfl
@[simp] theorem setSyn_cutCount (v : BitVec 12) : (s.setSyn v).cutCount = s.cutCount := rfl

@[simp] theorem setCase_din (c : BitVec 3) (i : BitVec 4) : (s.setCase c i).din = s.din := rfl
@[simp] theorem setCase_epat (c : BitVec 3) (i : BitVec 4) : (s.setCase c i).epat = s.epat := rfl
@[simp] theorem setCase_dout (c : BitVec 3) (i : BitVec 4) : (s.setCase c i).dout = s.dout := rfl
@[simp] theorem setCase_extReg (c : BitVec 3) (i : BitVec 4) : (s.setCase c i).extReg = s.extReg := rfl
@[simp] theorem setCase_synReg (c : BitVec 3) (i : BitVec 4) : (s.setCase c i).synReg = s.synReg := rfl
@[simp] theorem setCase_errCode (c : BitVec 3) (i : BitVec 4) : (s.setCase c i).errCode = s.errCode := rfl
@[simp] theorem setCase_caseCode (c : BitVec 3) (i : BitVec 4) : (s.setCase c i).caseCode = c := rfl
@[simp] theorem setCase_idx (c : BitVec 3) (i : BitVec 4) : (s.setCase c i).idx = i := rfl
@[simp] theorem setCase_g (c : BitVec 3) (i : BitVec 4) : (s.setCase c i).g = s.g := rfl
@[simp] theorem setCase_h (c : BitVec 3) (i : BitVec 4) : (s.setCase c i).h = s.h := rfl
@[simp] theorem setCase_resetAsserted (c : BitVec 3) (i : BitVec 4) : (s.setCase c i).resetAsserted = s.resetAsserted := rfl
@[simp] theorem setCase_pending (c : BitVec 3) (i : BitVec 4) : (s.setCase c i).pending = s.pending := rfl
@[simp] theorem setCase_replies (c : BitVec 3) (i : BitVec 4) : (s.setCase c i).replies = s.replies := rfl
@[simp] theorem setCase_cutCount (c : BitVec 3) (i : BitVec 4) : (s.setCase c i).cutCount = s.cutCount := rfl

@[simp] theorem reply_din (r : Reply) : (s.reply r).din = s.din := rfl
@[simp] theorem reply_epat (r : Reply) : (s.reply r).epat = s.epat := rfl
@[simp] theorem reply_dout (r : Reply) : (s.reply r).dout = s.dout := rfl
@[simp] theorem reply_extReg (r : Reply) : (s.reply r).extReg = s.extReg := rfl
@[simp] theorem reply_synReg (r : Reply) : (s.reply r).synReg = s.synReg := rfl
@[simp] theorem reply_errCode (r : Reply) : (s.reply r).errCode = s.errCode := rfl
@[simp] theorem reply_caseCode (r : Reply) : (s.reply r).caseCode = s.caseCode := rfl
@[simp] theorem reply_idx (r : Reply) : (s.reply r).idx = s.idx := rfl
@[simp] theorem reply_g (r : Reply) : (s.reply r).g = s.g := rfl
@[simp] theorem reply_h (r : Reply) : (s.reply r).h = s.h := rfl
@[simp] theorem reply_resetAsserted (r : Reply) : (s.reply r).resetAsserted = s.resetAsserted := rfl
@[simp] theorem reply_pending (r : Reply) : (s.reply r).pending = s.pending := rfl
@[simp] theorem reply_replies (r : Reply) : (s.reply r).replies = r :: s.replies := rfl
@[simp] theorem reply_cutCount (r : Reply) : (s.reply r).cutCount = s.cutCount := rfl

@[simp] theorem resetRegs_din : s.resetRegs.din = 0 := rfl
@[simp] theorem resetRegs_epat : s.resetRegs.epat = 0 := rfl
@[simp] theorem resetRegs_dout : s.resetRegs.dout = 0 := rfl
@[simp] theorem resetRegs_extReg : s.resetRegs.extReg = 0 := rfl
@[simp] theorem resetRegs_synReg : s.resetRegs.synReg = 0 := rfl
@[simp] theorem resetRegs_errCode : s.resetRegs.errCode = 0 := rfl
@[simp] theorem resetRegs_caseCode : s.resetRegs.caseCode = 0 := rfl
@[simp] theorem resetRegs_idx : s.resetRegs.idx = 0 := rfl
@[simp] theorem resetRegs_g : s.resetRegs.g = s.g := rfl
@[simp] theorem resetRegs_h : s.resetRegs.h = s.h := rfl
@[simp] theorem resetRegs_resetAsserted : s.resetRegs.resetAsserted = s.resetAsserted := rfl
@[simp] theorem resetRegs_pending : s.resetRegs.pending = s.pending := rfl
@[simp] theorem resetRegs_replies : s.resetRegs.replies = s.replies := rfl
@[simp] theorem resetRegs_cutCount : s.resetRegs.cutCount = s.cutCount := rfl

@[simp] theorem cutByReset_din : s.cutByReset.din = s.din := rfl
@[simp] theorem cutByReset_epat : s.cutByReset.epat = s.epat := rfl
@[simp] theorem cutByReset_dout : s.cutByReset.dout = s.dout := rfl
@[simp] theorem cutByReset_extReg : s.cutByReset.extReg = s.extReg := rfl
@[simp] theorem cutByReset_synReg : s.cutByReset.synReg = s.synReg := rfl
@[simp] theorem cutByReset_errCode : s.cutByReset.errCode = s.errCode := rfl
@[simp] theorem cutByReset_caseCode : s.cutByReset.caseCode = s.caseCode := rfl
@[simp] theorem cutByReset_idx : s.cutByReset.idx = s.idx := rfl
@[simp] theorem cutByReset_g : s.cutByReset.g = s.g := rfl
@[simp] theorem cutByReset_h : s.cutByReset.h = s.h := rfl
@[simp] theorem cutByReset_resetAsserted : s.cutByReset.resetAsserted = true := rfl
@[simp] theorem cutByReset_pending : s.cutByReset.pending = s.pending := rfl
@[simp] theorem cutByReset_replies : s.cutByReset.replies = .cut (Config.cutTransfer s.cutCount) :: s.replies := rfl
@[simp] theorem cutByReset_cutCount : s.cutByReset.cutCount = s.cutCount + 1 := rfl

end Sys2Proof.Machine.State
end

