-- ==== Sys2Proof/Laws/Ops.lean ====
section
/-! SUPPORT. What each shared operation can do, said once: every command completes, an access is performed only inside
the window and outside reset, and a step is one of a few cases. Later proofs cite these and unfold no operation. -/

namespace Sys2Proof.Machine

variable {s t : State}

/-- What each command answers. -/
@[simp] theorem exec_nop : exec .nop s = .next s.complete := rfl

@[simp] theorem exec_reserved (op : BitVec 4) (rest : BitVec 28) :
    exec (.reserved op rest) s = .next (s.raise .illegalCommand) := rfl

theorem exec_rdg {r : BitVec 5} (h : r.toNat < 12) :
    exec (.rdg r) s = .next (s.complete.setDout (zext24 (matRow s.g r.toNat))) := if_pos h

theorem exec_rdg_out {r : BitVec 5} (h : 12 ≤ r.toNat) : exec (.rdg r) s = .next (s.raise .illegalCommand) :=
  if_neg (Nat.not_lt.mpr h)

theorem exec_rdh {r : BitVec 5} (h : r.toNat < 24) :
    exec (.rdh r) s = .next (s.complete.setDout (zext24 (matRow s.h r.toNat))) := if_pos h

theorem exec_rdh_out {r : BitVec 5} (h : 24 ≤ r.toNat) : exec (.rdh r) s = .next (s.raise .illegalCommand) :=
  if_neg (Nat.not_lt.mpr h)

/-- Every command ends in a next state. -/
theorem exec_next (i : Instr) (s : State) : ∃ t, exec i s = .next t := by
  cases i with
  | rdg r =>
    rcases Nat.lt_or_ge r.toNat 12 with h | h
    · exact ⟨_, exec_rdg h⟩
    · exact ⟨_, exec_rdg_out h⟩
  | rdh r =>
    rcases Nat.lt_or_ge r.toNat 24 with h | h
    · exact ⟨_, exec_rdh h⟩
    · exact ⟨_, exec_rdh_out h⟩
  | _ => exact ⟨_, rfl⟩

/-- A command word runs its instruction, or records its error. -/
theorem execute_ok {w : Word} {i : Instr} (h : decode w = .ok i) : execute w s = exec i s := by
  simp only [execute, h]

theorem execute_error {w : Word} {e : CommandError} (h : decode w = .error e) : execute w s = .next (s.raise e) := by
  simp only [execute, h]

theorem execute_next (w : Word) (s : State) : ∃ t, execute w s = .next t := by
  rcases h : decode w with e | i
  · exact ⟨_, execute_error h⟩
  · rw [execute_ok h]; exact exec_next i s

/-- An access is performed exactly inside the window and outside reset. -/
theorem guarded_next {off : Nat} {p : Result} :
    guarded off s p = .next t ↔ off < Config.windowBytes ∧ s.resetAsserted = false ∧ p = .next t := by
  by_cases h : off < Config.windowBytes <;> by_cases h' : s.resetAsserted = true <;>
    simp [guarded, insideWindow, h, h']

/-- A read, performed or refused, changes nothing but what the host was answered. -/
theorem busRead_next (off width : Nat) (s : State) : ∃ r, busRead off width s = .next (s.reply r) := by
  by_cases h : accessOk off width = true <;> simp only [busRead, h]
  · exact ⟨_, rfl⟩
  · exact ⟨_, rfl⟩

/-- A write executes a command, stores into DIN or EPAT or nowhere, or is refused. -/
theorem busWrite_cases (off width : Nat) (v : Word) (s : State) :
    (off = 0 ∧ width = 32 ∧ busWrite off width v s = execute v (s.reply .written)) ∨
    (off ≠ 0 ∧ accessOk off width = true ∧ busWrite off width v s = .next ((s.reply .written).writeRegister off v)) ∨
    (accessOk off width = false ∧ busWrite off width v s = .next (s.reply .busError)) := by
  by_cases h : accessOk off width = true
  · by_cases h0 : off = 0
    · have hw : width = 32 := by simp [accessOk] at h; exact h.2
      exact .inl ⟨h0, hw, by rw [busWrite, if_pos h, if_pos h0]⟩
    · exact .inr (.inl ⟨h0, h, by simp [busWrite, h, h0]⟩)
  · exact .inr (.inr ⟨by simpa using h, by simp [busWrite, h]⟩)

/-- What a write outside CMD stores. -/
theorem writeRegister_cases (off : Nat) (v : Word) (s : State) :
    (off = 0x04 ∧ s.writeRegister off v = s.setDin (v.setWidth 24)) ∨
    (off = 0x08 ∧ s.writeRegister off v = s.setEpat (v.setWidth 24)) ∨
    (off ≠ 0x04 ∧ off ≠ 0x08 ∧ s.writeRegister off v = s) := by
  by_cases h4 : off = 0x04
  · exact .inl ⟨h4, by rw [h4]; rfl⟩
  by_cases h8 : off = 0x08
  · exact .inr (.inl ⟨h8, by rw [h8]; rfl⟩)
  · exact .inr (.inr ⟨h4, h8, by unfold State.writeRegister; split <;> simp_all⟩)

theorem resetLevel_true (s : State) : s.resetLevel true = { s with resetAsserted := true } := rfl

theorem resetLevel_release (h : s.resetAsserted = true) :
    s.resetLevel false = { s.resetRegs with resetAsserted := false } := by
  simp [State.resetLevel, h]

theorem resetLevel_idle (h : s.resetAsserted = false) : s.resetLevel false = s := by
  simp [State.resetLevel, h]

/-- A step with nothing pending. -/
theorem step_idle (h : s.pending = []) : step s = .next s := by
  simp [step, State.takeEvent, h]

/-- A step performs the soonest event. -/
theorem step_event {e : HostEvent} {rest : List HostEvent} (h : s.pending = e :: rest) :
    step s = hostStep e { s with pending := rest } := by
  simp [step, State.takeEvent, h]

/-- What a step that answers a next state did. -/
theorem step_next (h : step s = .next t) :
    (s.pending = [] ∧ t = s) ∨
    ∃ e rest, s.pending = e :: rest ∧ hostStep e { s with pending := rest } = .next t := by
  rcases hp : s.pending with _ | ⟨e, rest⟩
  · rw [step_idle hp] at h; cases h; exact .inl ⟨rfl, rfl⟩
  · rw [step_event hp] at h; exact .inr ⟨e, rest, rfl, h⟩

/-- What an event that answers a next state did: a read answered the host, a write executed a command, stored or was
refused, the reset input took a level, or reset cut a command short. -/
theorem hostStep_next {e : HostEvent} (h : hostStep e s = .next t) :
    (∃ off width r, e = .read off width ∧ t = s.reply r) ∨
    (∃ v, e = .write 0 32 v ∧ execute v (s.reply .written) = .next t) ∨
    (∃ off width v, e = .write off width v ∧ off ≠ 0 ∧ t = (s.reply .written).writeRegister off v) ∨
    (∃ off width v, e = .write off width v ∧ accessOk off width = false ∧ t = s.reply .busError) ∨
    (∃ a, e = .resetInput a ∧ t = s.resetLevel a) ∨
    (∃ v, e = .cutCommand v ∧ s.resetAsserted = false ∧ t = s.cutByReset) := by
  cases e with
  | read off width =>
    obtain ⟨-, -, h⟩ := guarded_next.mp h
    obtain ⟨r, hr⟩ := busRead_next off width s
    rw [hr] at h; cases h
    exact .inl ⟨off, width, r, rfl, rfl⟩
  | write off width v =>
    obtain ⟨-, -, h⟩ := guarded_next.mp h
    rcases busWrite_cases off width v s with ⟨rfl, rfl, hw⟩ | ⟨h0, -, hw⟩ | ⟨hr, hw⟩ <;> rw [hw] at h
    · exact .inr (.inl ⟨v, rfl, h⟩)
    · cases h; exact .inr (.inr (.inl ⟨off, width, v, rfl, h0, rfl⟩))
    · cases h; exact .inr (.inr (.inr (.inl ⟨off, width, v, rfl, hr, rfl⟩)))
  | resetInput a => cases h; exact .inr (.inr (.inr (.inr (.inl ⟨a, rfl, rfl⟩))))
  | cutCommand v =>
    by_cases hr : s.resetAsserted = true
    · simp [hostStep, hr] at h
    · simp [hostStep, hr] at h
      exact .inr (.inr (.inr (.inr (.inr ⟨v, rfl, by simpa using hr, h.symm⟩))))

end Sys2Proof.Machine
end

