-- ==== Sys2Proof/Laws/PerInstr.lean ====
section
/-! SUPPORT. A law of every instruction as syntax: the `OP` field of its word is its operation's number (R62), so that no
two operations but the two modes of DEC share one. -/

namespace Sys2Proof.Laws.EncodedOp

/-- The `OP` number of an instruction (R62). -/
def number : Instr → Nat
  | .nop => 0
  | .enc => 1
  | .decC => 2
  | .decR => 2
  | .ext => 3
  | .syn => 4
  | .srch => 5
  | .corr => 6
  | .rdg _ => 7
  | .rdh _ => 8
  | .reserved op _ => op.toNat

/-- The `OP` field of the encoded word is the operation's number. -/
def Statement (i : Instr) : Prop := opOf (encode i) = number i

theorem nop : Statement .nop := rfl
theorem enc : Statement .enc := rfl
theorem decC : Statement .decC := rfl
theorem decR : Statement .decR := rfl
theorem ext : Statement .ext := rfl
theorem syn : Statement .syn := rfl
theorem srch : Statement .srch := rfl
theorem corr : Statement .corr := rfl
theorem rdg (row : BitVec 5) : Statement (.rdg row) := by unfold Statement; revert row; decide
theorem rdh (row : BitVec 5) : Statement (.rdh row) := by unfold Statement; revert row; decide
theorem reserved (op : BitVec 4) (rest : BitVec 28) : Statement (.reserved op rest) :=
  congrArg BitVec.toNat (BitVec.eq_of_getLsbD_eq fun i hi => by
    simp only [encode, BitVec.getLsbD_extractLsb', BitVec.getLsbD_or, BitVec.getLsbD_shiftLeft, BitVec.getLsbD_setWidth]
    interval_cases i <;> simp)

end Sys2Proof.Laws.EncodedOp
end

