-- ==== Sys2Proof/Laws/Spec.lean ====
section
/-! SUPPORT. The statements' own terms (weights, parities, entries, concatenations as the spec's register forms) are the
model's. -/

namespace Sys2Proof.Machine

open Sys2Proof.Spec

theorem length_filter_range (n : Nat) (f : Nat → Bool) : ((List.range n).filter f).length = countOnes n f := by
  induction n with
  | zero => rfl
  | succ n ih =>
    rw [List.range_succ, List.filter_append, List.length_append, ih]; cases h : f n <;> simp [countOnes, h]

theorem countOnes_reverse (n : Nat) (f : Nat → Bool) : countOnes n (fun i => f (n - 1 - i)) = countOnes n f := by
  induction n generalizing f with
  | zero => rfl
  | succ n ih =>
    have h1 : countOnes (1 + n) f = (f 0).toNat + countOnes n (fun i => f (1 + i)) := by
      rw [countOnes_add]; simp [countOnes]
    rw [Nat.add_comm 1 n] at h1
    rw [h1, ← ih fun i => f (1 + i)]
    simp only [countOnes, Nat.add_sub_cancel, Nat.sub_self]
    rw [Nat.add_comm]
    congr 1
    refine countOnes_congr fun j hj => ?_
    congr 1; omega

theorem weight_eq_wt {n : Nat} (v : BitVec n) : weight v = wt v := by
  rw [weight, length_filter_range, wt, ← countOnes_reverse]
  refine countOnes_congr fun j hj => ?_
  simp [elem, BitVec.getMsbD, hj]

theorem parity_eq_xorSum (n : Nat) (f : Nat → Bool) : parity n f = xorSum n f := by
  rw [parity, length_filter_range]
  induction n with
  | zero => rfl
  | succ n ih =>
    simp only [countOnes, xorSum, ← ih]
    cases f n <;> simp
    rcases Nat.mod_two_eq_zero_or_one (countOnes n f) with h | h <;> simp [h, Nat.add_mod]

/-- The parity of a weight is the sum of the elements. -/
theorem wt_mod_two {n : Nat} (v : BitVec n) : (wt v % 2 == 1) = xorSum n (elem v) := by
  rw [← parity_eq_xorSum, parity, length_filter_range, wt]

theorem rowValue_eq {n m : Nat} (M : BitMatrix n m) (r : Nat) : rowValue M r = matRow M r := by
  simp [rowValue, matRow]

theorem entry_eq {n m : Nat} (M : BitMatrix n m) {r c : Nat} (hc : c < m) : entry M r c = elem (matRow M r) c := by
  simp [entry, matRow, elem, BitVec.getMsbD, hc]

theorem pair_eq (a b : BitVec 12) : pair a b = joinHalves a b := by
  have ha : a.toNat < 4096 := a.isLt
  have hb : b.toNat < 4096 := b.isLt
  apply BitVec.eq_of_toNat_eq
  simp only [pair, joinHalves, BitVec.toNat_ofNat, BitVec.toNat_or, BitVec.toNat_shiftLeft, BitVec.toNat_setWidth]
  rw [Nat.mod_eq_of_lt (by omega), Nat.mod_eq_of_lt (a := a.toNat) (by omega),
    Nat.mod_eq_of_lt (a := b.toNat) (by omega), Nat.shiftLeft_eq, Nat.mod_eq_of_lt (by omega), ← Nat.shiftLeft_eq,
    Nat.shiftLeft_add_eq_or_of_lt b.isLt]

theorem append_eq (w : BitVec 23) (p : Bool) : Spec.append w p = appendBit w p := by
  have hw : w.toNat < 8388608 := w.isLt
  have hp := Bool.toNat_lt p
  apply BitVec.eq_of_toNat_eq
  simp only [Spec.append, appendBit, BitVec.toNat_ofNat, BitVec.toNat_or, BitVec.toNat_shiftLeft, BitVec.toNat_setWidth,
    BitVec.toNat_ofBool]
  rw [Nat.mod_eq_of_lt (by omega), Nat.mod_eq_of_lt (a := w.toNat) (by omega),
    Nat.mod_eq_of_lt (a := p.toNat) (by omega), Nat.shiftLeft_eq, Nat.mod_eq_of_lt (by omega), ← Nat.shiftLeft_eq,
    ← Nat.shiftLeft_add_eq_or_of_lt (i := 1) hp, Nat.shiftLeft_eq]

/-- The statements' fields of a word are the decoder's. -/
theorem field_eq (w : Word) (lo len : Nat) : field w lo len = (w.extractLsb' lo len).toNat := by
  simp [field, BitVec.extractLsb'_toNat, Nat.shiftRight_eq_div_pow]

end Sys2Proof.Machine
end

