-- ==== Sys2Proof/Tests/Slice0.lean ====
section
/-! SUPPORT. The author's own tests. Words are written out from the fields of R61; the values are those of
spec/95_test_vectors.md and the rules it cites. The second part shows, for every statement with hypotheses, a state and
operands that meet them. -/

open Sys2Proof Sys2Proof.Machine

namespace Sys2Proof.Tests

/-- The reset state with DIN written. -/
def withDin (d : BitVec 24) : State := { State.reset with din := d }

/-- The reset state with the host's next events. -/
def withHost (l : List HostEvent) : State := { State.reset with pending := l }

/-- The result is a next state of which `p` holds. -/
def next (r : Result) (p : State → Bool) : Bool :=
  match r with
  | .next t => p t
  | _ => false

/-- The result is a next state with these values of DOUT and STATUS. -/
def gives (r : Result) (dout : BitVec 24) (status : Word) : Bool := next r fun t => t.dout == dout && t.statusWord == status

/-! ## Well-formedness: the ill-formed terms are refused (R66, R70) -/

theorem test_wf_rdg_row_past_G : ¬ (Instr.rdg 12).WellFormed := by decide
theorem test_wf_rdg_last_row : (Instr.rdg 11).WellFormed := by decide
theorem test_wf_rdh_row_past_H : ¬ (Instr.rdh 24).WellFormed := by decide
theorem test_wf_rdh_last_row : (Instr.rdh 23).WellFormed := by decide
theorem test_wf_reserved_low_op : ¬ (Instr.reserved 8 0).WellFormed := by decide
theorem test_wf_reserved_op : (Instr.reserved 9 0).WellFormed := by decide

/-! ## Decoding: bits [31:21] reserved, ROW, [15:13] reserved, LEN, [7:5] reserved, MODE, OP (R61) -/

theorem test_decode_nop : decode 0b00000000000_00000_000_00000_000_0_0000#32 = .ok .nop := by decide
theorem test_decode_enc : decode 0b00000000000_00000_000_01100_000_0_0001#32 = .ok .enc := by decide
theorem test_decode_decC : decode 0b00000000000_00000_000_10111_000_0_0010#32 = .ok .decC := by decide
theorem test_decode_decR : decode 0b00000000000_00000_000_10111_000_1_0010#32 = .ok .decR := by decide
theorem test_decode_ext : decode 0b00000000000_00000_000_10111_000_0_0011#32 = .ok .ext := by decide
theorem test_decode_syn : decode 0b00000000000_00000_000_11000_000_0_0100#32 = .ok .syn := by decide
theorem test_decode_srch : decode 0b00000000000_00000_000_01100_000_0_0101#32 = .ok .srch := by decide
theorem test_decode_corr : decode 0b00000000000_00000_000_11000_000_0_0110#32 = .ok .corr := by decide
theorem test_decode_rdg : decode 0b00000000000_01011_000_00000_000_0_0111#32 = .ok (.rdg 11) := by decide
theorem test_decode_rdh : decode 0b00000000000_10111_000_00000_000_0_1000#32 = .ok (.rdh 23) := by decide
theorem test_decode_reserved :
    decode 0b11111111111_00001_101_00011_010_1_1111#32 = .ok (.reserved 15 0b1111111111100001101000110101#28) := by decide

/-- The words of spec/95_test_vectors.md 2.11 that raise InvalidLength. -/
theorem test_invalid_length : [0x00000B01#32, 0x00001802, 0x00000100, 0x00000C07].all
    (fun w => decide (decode w = .error .invalidLength)) = true := by decide

/-- The words of spec/95_test_vectors.md 2.11 that raise IllegalCommand, but those of a reserved OP. -/
theorem test_illegal_command : [0x00000C21#32, 0x00002C01, 0x00200C01, 0x80000C01, 0x00000C11, 0x00010C01, 0x000C0007,
    0x00180008, 0x001E0508].all (fun w => decide (decode w = .error .illegalCommand)) = true := by decide

/-- The string `111000111000` is 0xE38 (R74). -/
theorem test_vector_value : vectorValue [true, true, true, false, false, false, true, true, true, false, false, false] = 0xE38 := by
  decide
/-- `enc len=11` assembles to 0x00000B01 (R75). -/
theorem test_enc_len_11 : assembleCommand .enc (some 11) = 0x00000B01 := by decide

theorem test_table_word : decodeTableWord 32 0x00001712 = some .decR := by decide

/-! ## The commands, from the reset state with DIN written (spec/95_test_vectors.md section 2) -/

theorem test_nop_clears_err : next (exec .nop { withDin 0xE38 with errCode := 1, dout := 5 })
    (fun t => decide (t = { withDin 0xE38 with dout := 5 })) = true := by decide
theorem test_reserved : gives (execute 0x00000B09 { withDin 0xE38 with dout := 0x71C3A9 }) 0x71C3A9 3 = true := by decide
theorem test_rdg_0 : gives (exec (.rdg 0) State.reset) 0x4006E2 0 = true := by decide
theorem test_rdg_12 : gives (exec (.rdg 12) State.reset) 0 3 = true := by decide
theorem test_rdh_12 : gives (exec (.rdh 12) State.reset) 0xDC5 0 = true := by decide
theorem test_rdh_23 : gives (exec (.rdh 23) State.reset) 0xFFE 0 = true := by decide
theorem test_enc : gives (exec .enc (withDin 0xABCE38)) 0x71C3A9 0 = true := by decide +kernel
theorem test_enc_123 : gives (exec .enc (withDin 0x123)) 0x091B2F 0 = true := by decide +kernel
theorem test_ext : gives (exec .ext (withDin 0xF1C3A9)) 0xE38753 0 = true := by decide
theorem test_ext_odd : next (exec .ext (withDin 0x7FFFFF)) (fun t => t.extReg == 0xFFFFFE) = true := by decide
theorem test_syn : gives (exec .syn (withDin 0xE38753)) 0xFFE 0 = true := by decide +kernel
theorem test_syn_123456 : next (exec .syn (withDin 0x123456)) (fun t => t.synReg == 0xD50) = true := by decide +kernel
theorem test_srch_step6 : gives (exec .srch (withDin 0x0FE)) 0x004404 0x940 = true := by decide
theorem test_srch_step7 : gives (exec .srch (withDin 0xE01)) 0 0x58 = true := by decide
theorem test_corr : gives (exec .corr { withDin 0x638751 with epat := 0x800003 }) 0xE38752 0 = true := by decide
theorem test_corr_any_weight : gives (exec .corr { withDin 0xFFFFFF with epat := 0xAAAAAA }) 0x555555 0 = true := by decide
theorem test_decC : gives (exec .decC (withDin 0x61C2A9)) 0xE38 0x240 = true := by decide +kernel
theorem test_decC_four_errors : next (exec .decC (withDin 0x71C3A6)) (fun t =>
    t.dout == 0xB30 && t.extReg == 0xE3874D && t.synReg == 0x508 && t.epat == 0x508000) = true := by decide +kernel
theorem test_decR : gives (exec .decR (withDin 0x01C3A9)) 0x038 0x60 = true := by decide
theorem test_decR_leaves_syn_and_epat : next (exec .decR { withDin 0x71C3A8 with synReg := 7, epat := 9 }) (fun t =>
    t.extReg == 0xE38750 && t.synReg == 7 && t.epat == 9) = true := by decide

/-! ## The host port -/

theorem test_step_runs_fetch_word : gives (step (State.reset.withFetchWord 32 0x00170008)) 0xFFE 0 = true := by decide
theorem test_read_id : next (step (withHost [.read 0x1C 32])) (fun t => t.replies == [.data 0x47170C01]) = true := by decide
theorem test_narrow_write_refused : next (step (withHost [.write 0x04 8 0xFF])) (fun t =>
    t.replies == [.busError] && t.din == 0) = true := by decide
theorem test_write_to_dout_ignored : next (step (withHost [.write 0x0C 32 0xABCDEF])) (fun t =>
    t.replies == [.written] && t.dout == 0) = true := by decide
theorem test_reset_clears : next (core.run 2 { withHost [.resetInput true, .resetInput false] with din := 5, errCode := 3 })
    (fun t => decide (t = State.reset)) = true := by decide

/-! ## A state and operands that meet each statement's hypotheses -/

/-- A state that meets the invariant, with this DIN. -/
def good (d : BitVec 24) : State := { withDin d with errCode := 1, caseCode := 4, idx := 9 }

theorem good_inv (d : BitVec 24) : (good d).Inv :=
  ⟨⟨Config.seed, by decide, rfl, rfl⟩, .inr (.inl rfl), (by decide : (4#3).toNat ≤ 6), by
    rw [if_pos (.inr rfl)]; exact (by decide : (9#4).toNat ≤ 11)⟩

theorem witness_DecodeOfEncode : (Instr.reserved 15 0xFFFFFFF).WellFormed := by decide
theorem witness_DecodedWordIsItsEncoding : decode 0x00170008 = .ok (.rdh 23) := by decide
theorem witness_OperationWordsAreThe44 :
    Spec.isOperation (.rdg 11) = true ∧ 0x000C0007#32 ∉ Spec.operationTable.map Prod.snd := by decide
theorem witness_Illegal : Spec.Illegal 0x001E0508 := by unfold Spec.Illegal; decide
theorem witness_wrong_length :
    ¬ Spec.Illegal 0x00170108 ∧ Spec.field 0x00170108 8 5 ≠ Spec.expectedLen.getD (Spec.field 0x00170108 0 4) 0 := by
  unfold Spec.Illegal; decide
theorem witness_right_length :
    ¬ Spec.Illegal 0x00170008 ∧ Spec.field 0x00170008 8 5 = Spec.expectedLen.getD (Spec.field 0x00170008 0 4) 0 := by
  unfold Spec.Illegal; decide
theorem witness_ReservedOpIsIllegalWhateverTheRest : 9 ≤ (9#4).toNat := by decide
theorem witness_DisassemblyAssemblesBack : (Instr.decR, 0x00001712#32) ∈ Spec.operationTable := by decide
theorem witness_LenOverride : (Instr.rdg 11).WellFormed ∧ Spec.isOperation (.rdg 11) = true ∧
    (0#5).toNat = Spec.expectedLen.getD (Spec.field (encode (.rdg 11)) 0 4) 0 ∧
    (31#5).toNat ≠ Spec.expectedLen.getD (Spec.field (encode (.rdg 11)) 0 4) 0 := by decide
theorem witness_StepRunsTheWrittenCommand : (withHost [.write 0 32 0x00001702]).pending = [.write 0 32 0x00001702] ∧
    (withHost [.write 0 32 0x00001702]).resetAsserted = false ∧ decode 0x00001702 = .ok .decC := by decide
theorem witness_StepRecordsARejectedWord : (withHost [.write 0 32 0xC11]).pending = [.write 0 32 0xC11] ∧
    (withHost [.write 0 32 0xC11]).resetAsserted = false ∧ decode 0xC11 = .error .illegalCommand ∧
    decode 0xB01 = .error .invalidLength := by decide
theorem witness_NothingPending : State.reset.pending = [] := rfl
theorem witness_Reads : ∀ off ∈ [0x00, 0x04, 0x08, 0x0C, 0x10, 0x14, 0x18, 0x1C],
    (withHost [.read off 32]).pending = .read off 32 :: [] ∧ (withHost [.read off 32]).resetAsserted = false ∧
    off % 4 = 0 ∧ off < 32 := by decide
theorem witness_Writes : ∀ off ∈ [0x00, 0x04, 0x08, 0x0C, 0x10, 0x14, 0x18, 0x1C],
    (withHost [.write off 32 7]).pending = .write off 32 7 :: [] ∧ (withHost [.write off 32 7]).resetAsserted = false ∧
    off % 4 = 0 ∧ off < 32 := by decide
theorem witness_RefusedAccesses : ∀ a ∈ [(0x1F, 32), (0x01, 32), (0x00, 8), (0x1C, 64)],
    (withHost [.write a.1 a.2 7]).pending = .write a.1 a.2 7 :: [] ∧ (withHost [.read a.1 a.2]).pending = .read a.1 a.2 :: [] ∧
    (withHost [.write a.1 a.2 7]).resetAsserted = false ∧ a.1 < 32 ∧ (a.1 % 4 ≠ 0 ∨ a.2 ≠ 32) := by decide
theorem witness_ForbiddenAccesses : (withHost [.read 32 32]).pending = .read 32 32 :: [] ∧ 32 ≤ 32 ∧
    ({ withHost [.read 31 32] with resetAsserted := true } : State).resetAsserted = true ∧ 31 < 32 := by decide
theorem witness_DutifulSteps : HostEvent.Dutiful (withHost [.read 31 8]) (.read 31 8) ∧
    ¬ HostEvent.Dutiful (withHost [.read 32 8]) (.read 32 8) := by
  unfold HostEvent.Dutiful; decide
theorem witness_OtherAccesses : ∃ t, (withHost [.write 0 8 7]).pending = .write 0 8 7 :: [] ∧
    Spec.isAccess (.write 0 8 7) = true ∧ Spec.isCommandWrite (.write 0 8 7) = false ∧ step (withHost [.write 0 8 7]) = .next t :=
  ⟨_, rfl, rfl, rfl, rfl⟩
theorem witness_AWriteIsRead : ∀ off ∈ [0x04, 0x08],
    (withHost [.write off 32 7, .read off 32]).pending = .write off 32 7 :: .read off 32 :: [] ∧
    (withHost [.write off 32 7, .read off 32]).resetAsserted = false := by decide
theorem witness_ResetLeavesTheResetState :
    (withHost [.resetInput true, .resetInput false]).pending = .resetInput true :: .resetInput false :: [] := rfl
theorem witness_ResetDuringACommand : (withHost [.cutCommand 0xC01, .resetInput false]).resetAsserted = false ∧
    (withHost [.cutCommand 0xC01, .resetInput false]).pending = .cutCommand 0xC01 :: .resetInput false :: [] := ⟨rfl, rfl⟩
theorem witness_StepKeepsTheInvariant : ∃ t, (good 0x71C3A9).Inv ∧
    step { good 0x71C3A9 with pending := [.write 0 32 0x00001702] } = .next t := ⟨_, good_inv _, rfl⟩
theorem witness_MatricesNeverChange : ∃ t, step (withHost [.write 0 32 0x00000007]) = .next t := ⟨_, rfl⟩
theorem witness_AccessesAreIdempotent : ∃ t, Spec.isAccess (.write 0 32 0x00000C05) = true ∧
    hostStep (.write 0 32 0x00000C05) (withDin 0xFFE) = .next t := ⟨_, rfl, rfl⟩
theorem witness_CommandsWriteOnly : ∃ t, exec .syn (withDin 0xE38753) = .next t := ⟨_, rfl⟩
theorem witness_DinBits : (Instr.enc, 12) ∈ [(Instr.enc, 12), (.srch, 12), (.decC, 23), (.decR, 23), (.ext, 23)] ∧
    (0xABCE38#24).toNat % 2 ^ 12 = (withDin 0xE38).din.toNat % 2 ^ 12 ∧
    (0xF1C3A9#24).toNat % 2 ^ 23 = (withDin 0x71C3A9).din.toNat % 2 ^ 23 := by decide
theorem witness_RdgRows : (11#5).toNat < 12 ∧ 12 ≤ (12#5).toNat := by decide
theorem witness_RdhRows : (23#5).toNat < 24 ∧ 24 ≤ (24#5).toNat := by decide
theorem witness_MatrixReadsGiveTheTables : (withDin 5).Built Config.seed := ⟨rfl, rfl⟩
theorem witness_BlocksAreRotations : 11 < 12 ∧ 10 < 11 := by decide
theorem witness_Admissible : 0b00010110111#11 ∈ Config.admissibleSeeds := by decide

/-- Step 3 at its bound. -/
theorem witness_Srch_step3 : Spec.weight 0xE00#12 ≤ 3 := by decide
/-- Step 4 at the last row, with no earlier match. -/
theorem witness_Srch_step4 : 3 < Spec.weight 0xFFF#12 ∧
    Spec.weight (0xFFF ^^^ Spec.rowValue State.reset.h 23) ≤ 2 ∧
    ∀ j < 11, 2 < Spec.weight (0xFFF ^^^ Spec.rowValue State.reset.h (12 + j)) := by decide
/-- Step 5 at its bound: no row matches 0x26C, and `T` is `0x26C × B`. -/
theorem witness_Srch_step5 : 3 < Spec.weight 0x26C#12 ∧
    (∀ i < 12, 2 < Spec.weight (0x26C ^^^ Spec.rowValue State.reset.h (12 + i))) ∧
    (∀ k < 12, (0x007#12).getLsbD (11 - k) = Spec.parity 12 fun r =>
      (0x26C#12).getLsbD (11 - r) && (Spec.rowValue State.reset.h (12 + r)).getLsbD (11 - k)) ∧
    Spec.weight 0x007#12 ≤ 3 := by decide
/-- Step 6 at row 9: no row matches 0x0FE in step 4, and row 9 is the first to match `T`. -/
theorem witness_Srch_step6 : 3 < Spec.weight 0x0FE#12 ∧
    (∀ i < 12, 2 < Spec.weight (0x0FE ^^^ Spec.rowValue State.reset.h (12 + i))) ∧
    ∃ T : BitVec 12, T = vecMat 0x0FE (lowerHalf State.reset.h) ∧ 3 < Spec.weight T ∧
      Spec.weight (T ^^^ Spec.rowValue State.reset.h 21) ≤ 2 ∧
      ∀ j < 9, 2 < Spec.weight (T ^^^ Spec.rowValue State.reset.h (12 + j)) := ⟨by decide, by decide, _, rfl, by decide⟩
/-- Step 7: neither 0xE01 nor its product with B is near 0 or any row. -/
theorem witness_Srch_step7 : 3 < Spec.weight 0xE01#12 ∧
    (∀ i < 12, 2 < Spec.weight (0xE01 ^^^ Spec.rowValue State.reset.h (12 + i))) ∧
    ∃ T : BitVec 12, T = vecMat 0xE01 (lowerHalf State.reset.h) ∧ 3 < Spec.weight T ∧
      ∀ i < 12, 2 < Spec.weight (T ^^^ Spec.rowValue State.reset.h (12 + i)) := ⟨by decide, by decide, _, rfl, by decide⟩

theorem witness_AtMostOneRowMatches : (good 0).Inv ∧ 11 < 12 ∧
    Spec.weight (0xFFF ^^^ Spec.rowValue (good 0).h (12 + 11)) ≤ 2 := ⟨good_inv 0, by decide, by decide⟩
theorem witness_CosetLeader_cases : (good 0).Inv ∧
    next (exec .srch (good 0xE00)) (fun t => t.caseCode == 1) = true ∧
    next (exec .srch (good 0xFFF)) (fun t => t.caseCode == 2) = true ∧
    next (exec .srch (good 0x26C)) (fun t => t.caseCode == 3) = true ∧
    next (exec .srch (good 0x0FE)) (fun t => t.caseCode == 4) = true :=
  ⟨good_inv 0, by decide, by decide, by decide, by decide⟩
theorem witness_EveryPatternOfWeightThree : (good 0xA76).Inv ∧ Spec.weight 0x800180#24 ≤ 3 ∧
    BitVec.ofNat 12 (good 0xA76).din.toNat = syndrome (good 0xA76).h 0x800180 := ⟨good_inv _, by decide +kernel, by decide +kernel⟩
theorem witness_CorrectorLaws : (good 0).Inv ∧
    (search (good 0).h (syndrome (good 0).h 0xE38753)).caseCode ≠ 5 := ⟨good_inv 0, by decide +kernel⟩
theorem witness_SyndromeLaws : (good 0).Inv ∧ Spec.weight 0x000001#24 % 2 = 1 := ⟨good_inv 0, by decide⟩
theorem witness_Uncorrectable : (good 0xE01).Inv ∧
    next (exec .srch (good 0xE01)) (fun t => t.unc) = true := ⟨good_inv _, by decide⟩
theorem witness_OnlySrch : ∃ t, (good 0xE01).Inv ∧ exec .srch (good 0xE01) = .next t ∧ (good 0xE01).unc = false ∧
    t.unc = true := ⟨_, good_inv _, rfl, by decide, by decide⟩
theorem witness_RecoversTheMessage : (good 0x31C369).Inv ∧ Spec.weight 0x4000C0#23 ≤ 3 ∧
    BitVec.ofNat 23 (good 0x31C369).din.toNat = encodeMessage (good 0x31C369).g 0xE38 ^^^ 0x4000C0 ∧
    BitVec.ofNat 23 (good 0x71C3A9).din.toNat = encodeMessage (good 0x71C3A9).g 0xE38 ^^^ 0 :=
  ⟨good_inv _, by decide +kernel, by decide +kernel, by decide +kernel⟩
theorem witness_FourOrMoreErrors : (good 0x09C3A9).Inv ∧ 4 ≤ Spec.weight 0x780000#23 ∧
    BitVec.ofNat 23 (good 0x09C3A9).din.toNat = encodeMessage (good 0x09C3A9).g 0xE38 ^^^ 0x780000 :=
  ⟨good_inv _, by decide +kernel, by decide +kernel⟩
theorem witness_EveryWordAndDistance : (good 0).Inv ∧ 0xE38#12 ≠ 0xE39 := ⟨good_inv 0, by decide⟩
theorem witness_ExtensionOfAReceivedWord : (good 0).Inv ∧ Spec.weight 0x4000C0#23 ≤ 3 := ⟨good_inv 0, by decide +kernel⟩
theorem witness_ThroughTheWindow : (good 0).Inv ∧ (good 0).resetAsserted = false ∧
    (0xABCE38#32).toNat % 2 ^ 12 = (0xE38#12).toNat ∧ Spec.weight 0x4000C0#23 ≤ 3 ∧
    (0x31C369#32).toNat % 2 ^ 23 = (encodeMessage (good 0).g 0xE38 ^^^ 0x4000C0).toNat ∧
    (AsmLine.encode 0xABCE38).events ++ (AsmLine.rd .dout).events ++ [] =
      [.write 4 32 0xABCE38, .write 0 32 0xC01, .read 12 32] :=
  ⟨good_inv 0, rfl, by decide +kernel, by decide +kernel, by decide +kernel, by decide +kernel⟩

end Sys2Proof.Tests
end

section
/-! Performing the same access twice (R53). Each part of an access (a command, a store, an answer to the host) is shown
to change nothing when repeated on the state it left, and the answer to the host is shown not to reach the block. -/

namespace Sys2Proof.Machine

variable {s t : State}

/-! ## What a command answers from every state -/

theorem exec_rdg_cases (row : BitVec 5) :
    (∀ s, exec (.rdg row) s = .next (s.raise .illegalCommand)) ∨
    (∀ s, exec (.rdg row) s = .next (s.complete.setDout (zext24 (matRow s.g row.toNat)))) :=
  (Nat.lt_or_ge row.toNat 12).symm.imp (fun hr _ => exec_rdg_out hr) (fun hr _ => exec_rdg hr)

theorem exec_rdh_cases (row : BitVec 5) :
    (∀ s, exec (.rdh row) s = .next (s.raise .illegalCommand)) ∨
    (∀ s, exec (.rdh row) s = .next (s.complete.setDout (zext24 (matRow s.h row.toNat)))) :=
  (Nat.lt_or_ge row.toNat 24).symm.imp (fun hr _ => exec_rdh_out hr) (fun hr _ => exec_rdh hr)

/-- A command word does what one command does, or records one error, from every state. -/
theorem execute_cases (w : Word) :
    (∃ i, ∀ s, execute w s = exec i s) ∨ (∃ e, ∀ s, execute w s = .next (s.raise e)) := by
  rcases hd : decode w with e | i
  · exact .inr ⟨e, fun _ => execute_error hd⟩
  · exact .inl ⟨i, fun _ => execute_ok hd⟩

/-! ## The host's side during a command -/

theorem exec_sameHost {i : Instr} (h : exec i s = .next t) : t.SameHost s := by
  cases i with
  | rdg row => rcases exec_rdg_cases row with hr | hr <;> rw [hr] at h <;> cases h <;> exact ⟨rfl, rfl, rfl, rfl⟩
  | rdh row => rcases exec_rdh_cases row with hr | hr <;> rw [hr] at h <;> cases h <;> exact ⟨rfl, rfl, rfl, rfl⟩
  | _ => cases h; exact ⟨rfl, rfl, rfl, rfl⟩

/-- No command reads what the host was answered. -/
theorem exec_reply {i : Instr} (h : exec i s = .next t) (r : Reply) : exec i (s.reply r) = .next (t.reply r) := by
  cases i with
  | rdg row => rcases exec_rdg_cases row with hr | hr <;> rw [hr] at h ⊢ <;> cases h <;> rfl
  | rdh row => rcases exec_rdh_cases row with hr | hr <;> rw [hr] at h ⊢ <;> cases h <;> rfl
  | _ => cases h; rfl

theorem execute_sameHost {w : Word} (h : execute w s = .next t) : t.SameHost s := by
  rcases execute_cases w with ⟨i, hi⟩ | ⟨e, he⟩
  · exact exec_sameHost (hi s ▸ h)
  · rw [he] at h; cases h; exact ⟨rfl, rfl, rfl, rfl⟩

theorem execute_reply {w : Word} (h : execute w s = .next t) (r : Reply) :
    execute w (s.reply r) = .next (t.reply r) := by
  rcases execute_cases w with ⟨i, hi⟩ | ⟨e, he⟩
  · rw [hi] at h ⊢; exact exec_reply h r
  · rw [he] at h ⊢; cases h; rfl

/-! ## A repetition on the state it left -/

/-- DEC.C computes each register it writes from DIN and H, neither of which it writes. -/
theorem exec_decC_twice (h : exec .decC s = .next t) : exec .decC t = .next t := by
  cases h
  refine congrArg Host.Outcome.next ?_
  apply State.ext <;> simp [State.operand]

/-- R53's reason: no command writes a register it reads, so on the state it left it computes the same values again. -/
theorem exec_twice {i : Instr} (h : exec i s = .next t) : exec i t = .next t := by
  cases i with
  | rdg row => rcases exec_rdg_cases row with hr | hr <;> rw [hr] at h ⊢ <;> cases h <;> rfl
  | rdh row => rcases exec_rdh_cases row with hr | hr <;> rw [hr] at h ⊢ <;> cases h <;> rfl
  | decC => exact exec_decC_twice h
  | _ => cases h; rfl

theorem execute_twice {w : Word} (h : execute w s = .next t) : execute w t = .next t := by
  rcases execute_cases w with ⟨i, hi⟩ | ⟨e, he⟩
  · rw [hi] at h ⊢; exact exec_twice h
  · rw [he] at h ⊢; cases h; rfl

/-- What a write outside CMD stored is stored again, whatever the host was answered in between. -/
theorem writeRegister_twice (off : Nat) (v : Word) (s : State) (r : Reply) :
    ((s.writeRegister off v).reply r).writeRegister off v = (s.writeRegister off v).reply r := by
  rcases writeRegister_cases off v s with ⟨rfl, hw⟩ | ⟨rfl, hw⟩ | ⟨h4, h8, hw⟩ <;> rw [hw]
  · rfl
  · rfl
  · rcases writeRegister_cases off v (s.reply r) with ⟨h, -⟩ | ⟨h, -⟩ | ⟨-, -, hw'⟩
    · exact absurd h h4
    · exact absurd h h8
    · exact hw'

/-- A write repeated on the state it left answers the host and does nothing else. -/
theorem busWrite_twice {off width : Nat} {v : Word} (h : busWrite off width v s = .next t) :
    ∃ r, busWrite off width v t = .next (t.reply r) := by
  rcases busWrite_cases off width v s with ⟨rfl, rfl, hw⟩ | ⟨h0, hok, hw⟩ | ⟨hbad, hw⟩ <;> rw [hw] at h
  · have hcommand : execute v (t.reply .written) = .next (t.reply .written) := execute_reply (execute_twice h) .written
    exact ⟨.written, hcommand⟩
  · cases h
    exact ⟨.written, by simp [busWrite, hok, h0, writeRegister_twice]⟩
  · exact ⟨.busError, by simp [busWrite, hbad]⟩

theorem busWrite_resetAsserted {off width : Nat} {v : Word} (h : busWrite off width v s = .next t) :
    t.resetAsserted = s.resetAsserted := by
  rcases busWrite_cases off width v s with ⟨-, -, hw⟩ | ⟨-, -, hw⟩ | ⟨-, hw⟩ <;> rw [hw] at h
  · obtain ⟨-, -, hreset, -⟩ := execute_sameHost h
    exact hreset
  · cases h
    rcases writeRegister_cases off v (s.reply .written) with ⟨-, hs⟩ | ⟨-, hs⟩ | ⟨-, -, hs⟩ <;> rw [hs] <;> rfl
  · cases h; rfl

/-- An access repeated on the state it left answers the host and does nothing else. -/
theorem hostStep_twice {e : HostEvent} (he : Spec.isAccess e = true) (h : hostStep e s = .next t) :
    ∃ r, hostStep e t = .next (t.reply r) := by
  cases e with
  | read off width =>
    obtain ⟨hin, hreset, hread⟩ := guarded_next.mp h
    obtain ⟨r, hr⟩ := busRead_next off width s
    rw [hr] at hread; cases hread
    obtain ⟨r', hr'⟩ := busRead_next off width (s.reply r)
    exact ⟨r', guarded_next.mpr ⟨hin, hreset, hr'⟩⟩
  | write off width v =>
    obtain ⟨hin, hreset, hwrite⟩ := guarded_next.mp h
    obtain ⟨r, hr⟩ := busWrite_twice hwrite
    exact ⟨r, guarded_next.mpr ⟨hin, (busWrite_resetAsserted hwrite).trans hreset, hr⟩⟩
  | resetInput _ | cutCommand _ => cases he

theorem reply_sameBlock (s : State) (r : Reply) : (s.reply r).SameBlock s :=
  ⟨rfl, rfl, rfl, rfl, rfl, rfl, rfl, rfl, rfl, rfl⟩

/-- Settles O26: the second access is performed too, and answering the host is all it does. -/
theorem accessesAreIdempotent : Obligations.AccessesAreIdempotent := by
  intro s t e he h
  obtain ⟨r, hr⟩ := hostStep_twice he h
  exact ⟨t.reply r, hr, reply_sameBlock t r⟩

end Sys2Proof.Machine
end

section
/-! The outcome of every command word (R60, R69 to R71, R77). The decoder's checks are read as the spec's fields; a word
with legal fields is put together again from them; and the three outcomes of a word (illegal, wrong length, complete)
are each said once, for execution and for disassembly. -/

namespace Sys2Proof.Machine

open Sys2Proof.Spec

variable {s t : State} {w : Word} {i : Instr}

/-! ## The decoder's checks in the spec's fields -/

theorem opOf_eq_field (w : Word) : opOf w = field w 0 4 := (field_eq w 0 4).symm

theorem lenOf_eq_field (w : Word) : lenOf w = field w 8 5 := (field_eq w 8 5).symm

theorem rowOf_toNat_eq_field (w : Word) : (rowOf w).toNat = field w 16 5 := (field_eq w 16 5).symm

theorem extractLsb'_eq_zero_iff (w : Word) (lo len : Nat) : w.extractLsb' lo len = 0#len ↔ field w lo len = 0 := by
  rw [field_eq, ← BitVec.toNat_inj, BitVec.toNat_ofNat, Nat.zero_mod]

theorem modeOf_iff_field (w : Word) : modeOf w = true ↔ field w 4 1 = 1 := by
  simp [modeOf, field, BitVec.getLsbD, Nat.testBit_eq_decide_div_mod_eq]

theorem expLen_eq_expectedLen (op : Nat) : expLen op = expectedLen.getD op 0 := by
  rcases Nat.lt_or_ge op 9 with h | h
  · interval_cases op <;> rfl
  · have hout : expectedLen.length ≤ op := h
    rw [List.getD_eq_default _ _ hout, expLen] <;> omega

/-- The reserved bits are 0 together exactly when each of their three fields is. -/
theorem reservedOf_eq_zero_iff (w : Word) :
    reservedOf w = 0 ↔ field w 5 3 = 0 ∧ field w 13 3 = 0 ∧ field w 21 11 = 0 := by
  have hwiden (v : BitVec 3) : v.setWidth 11 = 0#11 ↔ v = 0#3 := by
    rw [← BitVec.toNat_inj, BitVec.toNat_setWidth_of_le (by decide), ← BitVec.toNat_inj]; rfl
  simp only [reservedOf, BitVec.ofNat_eq_ofNat, BitVec.or_eq_zero_iff, hwiden, extractLsb'_eq_zero_iff, and_assoc]

/-- The decoder's first six checks are those of R71. -/
theorem not_fieldsLegal_iff_illegal (w : Word) : ¬ FieldsLegal w ↔ Illegal w := by
  have hrow : rowOf w = 0 ↔ field w 16 5 = 0 := extractLsb'_eq_zero_iff w 16 5
  simp only [FieldsLegal, Illegal, reservedOf_eq_zero_iff, modeOf_iff_field, opOf_eq_field, rowOf_toNat_eq_field, ne_eq,
    hrow]
  omega

/-! ## A word from its fields -/

theorem reservedOf_eq_zero_of_fieldsLegal (h : FieldsLegal w) : reservedOf w = 0 := by
  obtain ⟨-, hreserved, -⟩ := h
  exact hreserved

/-- The bits of a field that is 0. -/
theorem getElem_of_field_eq_zero {lo len j : Nat} (h : field w lo len = 0) (hlo : lo ≤ j) (hlen : j < lo + len)
    (hj : j < 32) : w[j] = false := by
  have hzero : w.extractLsb' lo len = 0#len := (extractLsb'_eq_zero_iff w lo len).mpr h
  have hbit : (w.extractLsb' lo len).getLsbD (j - lo) = false := by rw [hzero, BitVec.getLsbD_zero]
  rwa [BitVec.getLsbD_extractLsb', Nat.add_sub_cancel' hlo, decide_eq_true (by omega), Bool.true_and,
    BitVec.getLsbD_eq_getElem hj] at hbit

/-- A word whose reserved bits are 0 is its five fields side by side (R61). -/
theorem commandWord_fields (h : reservedOf w = 0) :
    commandWord (w.extractLsb' 0 4) (modeOf w) (w.extractLsb' 8 5) (rowOf w) = w := by
  obtain ⟨h5, h13, h21⟩ := (reservedOf_eq_zero_iff w).mp h
  have hreserved : ∀ (j : Nat) (hj : j < 32), 5 ≤ j ∧ j < 8 ∨ 13 ≤ j ∧ j < 16 ∨ 21 ≤ j → w[j] = false := by
    rintro j hj (⟨hlo, hlen⟩ | ⟨hlo, hlen⟩ | hlo)
    · exact getElem_of_field_eq_zero h5 hlo hlen hj
    · exact getElem_of_field_eq_zero h13 hlo hlen hj
    · exact getElem_of_field_eq_zero h21 hlo hj hj
  apply BitVec.eq_of_getLsbD_eq
  intro j hj
  simp only [commandWord, modeOf, rowOf, BitVec.getLsbD_or, BitVec.getLsbD_shiftLeft, BitVec.getLsbD_setWidth,
    BitVec.getLsbD_extractLsb', BitVec.getLsbD_ofBool]
  interval_cases j <;> simp [hreserved]

/-- `len=N` replaces the LEN field and no other. -/
theorem withLen_commandWord (op : BitVec 4) (mode : Bool) (len n row : BitVec 5) :
    withLen (commandWord op mode len row) n = commandWord op mode n row := by
  apply BitVec.eq_of_getLsbD_eq
  intro j hj
  simp only [withLen, commandWord, BitVec.getLsbD_or, BitVec.getLsbD_and, BitVec.getLsbD_not, BitVec.getLsbD_shiftLeft,
    BitVec.getLsbD_setWidth]
  interval_cases j <;> simp

/-- The operation of a word with legal fields: its own word has the same fields, LEN being the expected one. -/
theorem operationOf_of_fieldsLegal (h : FieldsLegal w) :
    ∃ i, operationOf (opOf w) (modeOf w) (rowOf w) = .ok i ∧ isOperation i = true ∧ i.WellFormed ∧
      encode i = commandWord (w.extractLsb' 0 4) (modeOf w) (BitVec.ofNat 5 (expLen (opOf w))) (rowOf w) := by
  obtain ⟨hop, -, hmode, hrow, hrowG, hrowH⟩ := h
  have hop4 : w.extractLsb' 0 4 = BitVec.ofNat 4 (opOf w) := by rw [opOf, BitVec.ofNat_toNat, BitVec.setWidth_eq]
  rw [hop4]
  generalize opOf w = op at *
  generalize modeOf w = mode at *
  generalize rowOf w = row at *
  by_cases h2 : op = 2
  · obtain rfl : row = 0 := by by_contra h0; have := hrow h0; omega
    subst h2; cases mode <;> exact ⟨_, rfl, rfl, rfl, rfl⟩
  obtain rfl : mode = false := by simpa using fun hm => h2 (hmode hm)
  by_cases h7 : op = 7
  · subst h7; exact ⟨_, rfl, rfl, decide_eq_true (hrowG rfl), rfl⟩
  by_cases h8 : op = 8
  · subst h8; exact ⟨_, rfl, rfl, decide_eq_true (hrowH rfl), rfl⟩
  obtain rfl : row = 0 := by by_contra h0; have := hrow h0; omega
  obtain rfl | rfl | rfl | rfl | rfl | rfl : op = 0 ∨ op = 1 ∨ op = 3 ∨ op = 4 ∨ op = 5 ∨ op = 6 := by omega
  all_goals exact ⟨_, rfl, rfl, rfl, rfl⟩

/-! ## The three outcomes of a word -/

/-- An illegal word is rejected by name or is the table's reserved row. -/
theorem decode_of_illegal (h : Illegal w) :
    decode w = .error .illegalCommand ∨ ∃ op rest, decode w = .ok (.reserved op rest) :=
  (Nat.lt_or_ge (opOf w) 9).imp (decode_of_not_fieldsLegal ((not_fieldsLegal_iff_illegal w).mpr h))
    (fun hop => ⟨_, _, decode_reservedOp hop⟩)

theorem execute_of_illegal (h : Illegal w) (s : State) : execute w s = .next (s.raise .illegalCommand) := by
  rcases decode_of_illegal h with hdec | ⟨op, rest, hdec⟩
  · exact execute_error hdec
  · rw [execute_ok hdec, exec_reserved]

theorem decode_of_wrongLength (h : FieldsLegal w) (hlen : lenOf w ≠ expLen (opOf w)) :
    decode w = .error .invalidLength := by
  rw [decode_of_fieldsLegal h, if_neg hlen]

/-- A word that passes every check is the word of an operation. -/
theorem decode_of_rightLength (h : FieldsLegal w) (hlen : lenOf w = expLen (opOf w)) :
    ∃ i, decode w = .ok i ∧ isOperation i = true ∧ i.WellFormed ∧ encode i = w := by
  obtain ⟨i, hi, hoper, hwf, henc⟩ := operationOf_of_fieldsLegal h
  have hlen5 : BitVec.ofNat 5 (expLen (opOf w)) = w.extractLsb' 8 5 := by
    rw [← hlen, lenOf, BitVec.ofNat_toNat, BitVec.setWidth_eq]
  refine ⟨i, by rw [decode_of_fieldsLegal h, if_pos hlen, hi], hoper, hwf, ?_⟩
  rw [henc, hlen5, commandWord_fields (reservedOf_eq_zero_of_fieldsLegal h)]

/-- An operation is decoded only from a word that passes every check. -/
theorem checks_of_decode (hi : isOperation i = true) (h : decode w = .ok i) :
    FieldsLegal w ∧ lenOf w = expLen (opOf w) := by
  have hlegal : FieldsLegal w := by
    by_contra hill
    rcases decode_of_illegal ((not_fieldsLegal_iff_illegal w).mp hill) with hdec | ⟨op, rest, hdec⟩
    · cases h.symm.trans hdec
    · cases h.symm.trans hdec; cases hi
  refine ⟨hlegal, ?_⟩
  by_contra hlen
  rw [decode_of_wrongLength hlegal hlen] at h
  cases h

/-- An operation that some word stands for completes (R31). -/
theorem exec_errCode_of_wellFormed (hi : isOperation i = true) (hwf : i.WellFormed) (h : exec i s = .next t) :
    t.errCode = errNone := by
  cases i with
  | rdg row => rw [exec_rdg (of_decide_eq_true hwf)] at h; cases h; rfl
  | rdh row => rw [exec_rdh (of_decide_eq_true hwf)] at h; cases h; rfl
  | reserved _ _ => cases hi
  | _ => cases h; rfl

/-! ## The table of R69 -/

theorem decode_of_mem_operationTable : ∀ p ∈ operationTable, decode p.2 = .ok p.1 := by decide

theorem isOperation_of_mem_operationTable : ∀ p ∈ operationTable, isOperation p.1 = true := by decide

theorem rdg_mem_operationTable :
    ∀ row : BitVec 5, row.toNat < 12 → (Instr.rdg row, encode (.rdg row)) ∈ operationTable := by decide

theorem rdh_mem_operationTable :
    ∀ row : BitVec 5, row.toNat < 24 → (Instr.rdh row, encode (.rdh row)) ∈ operationTable := by decide

/-- The table lists every operation that some word stands for. -/
theorem mem_operationTable (hi : isOperation i = true) (hwf : i.WellFormed) : (i, encode i) ∈ operationTable := by
  cases i with
  | rdg row => exact rdg_mem_operationTable row (of_decide_eq_true hwf)
  | rdh row => exact rdh_mem_operationTable row (of_decide_eq_true hwf)
  | reserved _ _ => cases hi
  | _ => decide

theorem decode_eq_ok_iff_mem_operationTable (hi : isOperation i = true) :
    decode w = .ok i ↔ (i, w) ∈ operationTable := by
  refine ⟨fun h => ?_, decode_of_mem_operationTable (i, w)⟩
  obtain ⟨hlegal, hlen⟩ := checks_of_decode hi h
  obtain ⟨j, hj, hoper, hwf, rfl⟩ := decode_of_rightLength hlegal hlen
  cases h.symm.trans hj
  exact mem_operationTable hoper hwf

/-- Settles O3: the table's words decode to its operations, and any other word fails a check. -/
theorem operationWordsAreThe44 : Obligations.OperationWordsAreThe44 := by
  refine ⟨rfl, by decide, fun w i => decode_eq_ok_iff_mem_operationTable,
    fun w i s h => execute_ok (decode_of_mem_operationTable _ h), fun w s hw => ?_⟩
  by_cases hlegal : FieldsLegal w
  · by_cases hlen : lenOf w = expLen (opOf w)
    · obtain ⟨i, -, hoper, hwf, rfl⟩ := decode_of_rightLength hlegal hlen
      exact absurd (List.mem_map_of_mem (mem_operationTable hoper hwf)) hw
    · exact .inr (execute_error (decode_of_wrongLength hlegal hlen))
  · exact .inl (execute_of_illegal ((not_fieldsLegal_iff_illegal w).mp hlegal) s)

/-! ## ERR after a command -/

/-- Settles O4: the three outcomes exclude each other, and each leaves its own code in ERR. -/
theorem errTellsTheOutcomeOfEveryWord : Obligations.ErrTellsTheOutcomeOfEveryWord := by
  intro w s
  rw [← not_fieldsLegal_iff_illegal, not_not, ← lenOf_eq_field, ← opOf_eq_field, ← expLen_eq_expectedLen]
  by_cases hlegal : FieldsLegal w
  · by_cases hlen : lenOf w = expLen (opOf w)
    · obtain ⟨i, hdec, hoper, hwf, -⟩ := decode_of_rightLength hlegal hlen
      obtain ⟨t, ht⟩ := exec_next i s
      have herr : t.errCode = 0 := exec_errCode_of_wellFormed hoper hwf ht
      exact ⟨t, (execute_ok hdec).trans ht, by simp [herr, hlegal, hlen]⟩
    · exact ⟨_, execute_error (decode_of_wrongLength hlegal hlen), by
        simp [errCodeOf, errInvalidLength, hlegal, hlen]⟩
  · exact ⟨_, execute_of_illegal ((not_fieldsLegal_iff_illegal w).mp hlegal) s, by
      simp [errCodeOf, errIllegalCommand, hlegal]⟩

/-- Settles O6: the first check answers such a word, whose OP field is `op`. -/
theorem reservedOpIsIllegalWhateverTheRest : Obligations.ReservedOpIsIllegalWhateverTheRest := by
  intro op rest s hop
  have hfield : opOf (encode (.reserved op rest)) = op.toNat := Laws.EncodedOp.reserved op rest
  have hdec := decode_reservedOp (hfield.symm ▸ hop)
  exact ⟨execute_ok hdec, exec_reserved op rest⟩

/-! ## Disassembly (R77) -/

theorem disassemble_of_decode (hi : isOperation i = true) (h : decode w = .ok i) : disassemble w = .command i none := by
  cases i with
  | reserved _ _ => cases hi
  | _ => simp only [disassemble, h]

theorem disassemble_of_illegal (h : Illegal w) : disassemble w = .cmdRaw w := by
  rcases decode_of_illegal h with hdec | ⟨op, rest, hdec⟩ <;> simp only [disassemble, hdec]

/-- A wrong length disassembles to the operation of the same fields, whose word with LEN replaced is the word itself. -/
theorem disassemble_of_wrongLength (h : FieldsLegal w) (hlen : lenOf w ≠ expLen (opOf w)) :
    ∃ i, isOperation i = true ∧ disassemble w = .command i (some (w.extractLsb' 8 5)) ∧
      withLen (encode i) (w.extractLsb' 8 5) = w := by
  obtain ⟨i, hi, hoper, -, henc⟩ := operationOf_of_fieldsLegal h
  refine ⟨i, hoper, by simp only [disassemble, decode_of_wrongLength h hlen, hi], ?_⟩
  rw [henc, withLen_commandWord, commandWord_fields (reservedOf_eq_zero_of_fieldsLegal h)]

theorem events_disassemble (w : Word) : (disassemble w).events = [.write 0 32 w] := by
  by_cases hlegal : FieldsLegal w
  · by_cases hlen : lenOf w = expLen (opOf w)
    · obtain ⟨i, hdec, hoper, -, henc⟩ := decode_of_rightLength hlegal hlen
      rw [disassemble_of_decode hoper hdec, AsmLine.events, assembleCommand, henc]; rfl
    · obtain ⟨i, -, hdis, hword⟩ := disassemble_of_wrongLength hlegal hlen
      rw [hdis, AsmLine.events, assembleCommand, hword]; rfl
  · rw [disassemble_of_illegal ((not_fieldsLegal_iff_illegal w).mp hlegal)]; rfl

/-- Settles O8, outcome by outcome. -/
theorem disassemblyAssemblesBack : Obligations.DisassemblyAssemblesBack := by
  intro w
  rw [← not_fieldsLegal_iff_illegal, not_not, ← lenOf_eq_field, ← opOf_eq_field, ← expLen_eq_expectedLen, lenOf,
    BitVec.ofNat_toNat, BitVec.setWidth_eq]
  refine ⟨events_disassemble w, fun i hi => ?_, fun hlegal hlen => ?_, fun hill => ?_⟩
  · exact disassemble_of_decode (isOperation_of_mem_operationTable _ hi) (decode_of_mem_operationTable _ hi)
  · obtain ⟨i, hoper, hdis, -⟩ := disassemble_of_wrongLength hlegal hlen
    exact ⟨i, hoper, hdis⟩
  · exact disassemble_of_illegal ((not_fieldsLegal_iff_illegal w).mp hill)

end Sys2Proof.Machine
end

section
/-! The matrices of the block: no step writes them (R41, R92), and what rows they hold (R85, R86, R93). -/

namespace Sys2Proof.Machine

open Sys2Proof.Spec

variable {s t : State}

/-! ## No step changes the matrices (R41, R92) -/

theorem exec_matrices {i : Instr} (h : exec i s = .next t) : t.g = s.g ∧ t.h = s.h := by
  cases i with
  | rdg row => rcases exec_rdg_cases row with hr | hr <;> rw [hr] at h <;> cases h <;> exact ⟨rfl, rfl⟩
  | rdh row => rcases exec_rdh_cases row with hr | hr <;> rw [hr] at h <;> cases h <;> exact ⟨rfl, rfl⟩
  | _ => cases h; exact ⟨rfl, rfl⟩

theorem execute_matrices {w : Word} (h : execute w s = .next t) : t.g = s.g ∧ t.h = s.h := by
  rcases execute_cases w with ⟨i, hi⟩ | ⟨e, he⟩
  · exact exec_matrices (hi s ▸ h)
  · rw [he] at h; cases h; exact ⟨rfl, rfl⟩

theorem writeRegister_matrices (off : Nat) (v : Word) (s : State) :
    (s.writeRegister off v).g = s.g ∧ (s.writeRegister off v).h = s.h := by
  rcases writeRegister_cases off v s with ⟨-, hw⟩ | ⟨-, hw⟩ | ⟨-, -, hw⟩ <;> rw [hw] <;> exact ⟨rfl, rfl⟩

theorem resetLevel_matrices (s : State) (asserted : Bool) :
    (s.resetLevel asserted).g = s.g ∧ (s.resetLevel asserted).h = s.h := by
  cases asserted
  · cases h : s.resetAsserted
    · rw [resetLevel_idle h]; exact ⟨rfl, rfl⟩
    · rw [resetLevel_release h]; exact ⟨rfl, rfl⟩
  · exact ⟨rfl, rfl⟩

theorem hostStep_matrices {e : HostEvent} (h : hostStep e s = .next t) : t.g = s.g ∧ t.h = s.h := by
  rcases hostStep_next h with ⟨_, _, _, -, rfl⟩ | ⟨_, -, hexec⟩ | ⟨off, _, v, -, -, rfl⟩ | ⟨_, _, _, -, -, rfl⟩ |
    ⟨a, -, rfl⟩ | ⟨_, -, -, rfl⟩
  · exact ⟨rfl, rfl⟩
  · obtain ⟨hg, hh⟩ := execute_matrices hexec
    exact ⟨hg, hh⟩
  · exact writeRegister_matrices off v _
  · exact ⟨rfl, rfl⟩
  · exact resetLevel_matrices s a
  · exact ⟨rfl, rfl⟩

/-- Settles O25, event by event. -/
theorem matricesNeverChange : Obligations.MatricesNeverChange := by
  intro s t h
  rcases step_next h with ⟨-, rfl⟩ | ⟨e, rest, -, hstep⟩
  · exact ⟨rfl, rfl⟩
  · obtain ⟨hg, hh⟩ := hostStep_matrices hstep
    exact ⟨hg, hh⟩

/-! ## The rows of the matrices (R81 to R86, R93) -/

/-- The rows of G at the default seed (R85). -/
theorem matRow_buildG_seed : (List.range 12).map (matRow (buildG Config.seed)) = tableG := by decide +kernel

/-- The rows of H at the default seed (R86). -/
theorem matRow_buildH_seed : (List.range 24).map (matRow (buildH Config.seed)) = tableH := by decide +kernel

/-- Settles O32: a matrix read answers the row its operand names, and the rows are the tables'. -/
theorem matrixReadsGiveTheTables : Obligations.MatrixReadsGiveTheTables := by
  rintro s ⟨hg, hh⟩
  refine ⟨fun r hr => ?_, fun r hr => ?_⟩
  · have hrow : (BitVec.ofNat 5 r).toNat = r := Nat.mod_eq_of_lt (by omega)
    have htable : matRow s.g r = tableG.getD r 0 := by simp [hg, ← matRow_buildG_seed, hr]
    rw [exec_rdg (hrow.trans_lt hr), hrow, htable]; rfl
  · have hrow : (BitVec.ofNat 5 r).toNat = r := Nat.mod_eq_of_lt (by omega)
    have htable : matRow s.h r = tableH.getD r 0 := by simp [hh, ← matRow_buildH_seed, hr]
    rw [exec_rdh (hrow.trans_lt hr), hrow, htable]; rfl

/-- The left block of G is the identity (R82). -/
theorem entry_buildG_left (seed : BitVec 11) {r c : Nat} (hr : r < 12) (hc : c < 12) :
    entry (buildG seed) r c = decide (c = r) := by
  rw [entry_eq _ (by omega), elem_buildG seed hr (by omega), gEntry, if_pos hc]

/-- The top block of H is the identity (R84). -/
theorem entry_buildH_top (seed : BitVec 11) {r c : Nat} (hr : r < 12) (hc : c < 12) :
    entry (buildH seed) r c = decide (c = r) := by
  rw [entry_eq _ hc, matRow_top seed hr, elem_unit12 hr hc]

/-- The last row of G holds nothing of the seed. -/
theorem rowValue_buildG_last (seed : BitVec 11) : rowValue (buildG seed) 11 = 0b00000000000111111111111#23 := by
  rw [rowValue_eq]
  refine elem_ext fun c hc => ?_
  rw [elem_buildG seed (by decide) hc]
  interval_cases c <;> rfl

/-- The last row of H holds nothing of the seed. -/
theorem rowValue_buildH_last (seed : BitVec 11) : rowValue (buildH seed) 23 = 0b111111111110#12 := by
  rw [rowValue_eq]
  refine elem_ext fun c hc => ?_
  rw [elem_buildH seed (by decide) hc]
  interval_cases c <;> rfl

/-- Settles O33 from the entries of the built matrices. -/
theorem finalRowsAndIdentitiesAtEverySeed : Obligations.FinalRowsAndIdentitiesAtEverySeed := fun seed =>
  ⟨rowValue_buildG_last seed, rowValue_buildH_last seed, fun _ _ => entry_buildG_left seed,
    fun _ _ => entry_buildH_top seed⟩

end Sys2Proof.Machine
end

section
/-! The code at the admissible seeds (R87 to R89). All of it turns on one property of such a seed: its weight is 6, and it
overlaps each of its rotations in 3 elements. So the rows of B overlap in an odd number of elements only with themselves,
which makes B its own inverse, and the extended code is doubly even with no word of weight 4. -/

namespace Sys2Proof.Machine

open Sys2Proof.Spec

/-! ## Counting ones -/

theorem xorSum_eq_countOnes_odd (n : Nat) (f : Nat → Bool) : xorSum n f = (countOnes n f % 2 == 1) := by
  rw [← parity_eq_xorSum, parity, length_filter_range]

/-- A sum with a unit vector picks one term. -/
theorem xorSum_and_single {n i : Nat} (hi : i < n) (f : Nat → Bool) :
    xorSum n (fun j => f j && decide (i = j)) = f i := by
  rw [xorSum_single hi _ fun j _ hne => by simp [hne.symm]]
  simp

@[simp] theorem countOnes_false (n : Nat) : countOnes n (fun _ => false) = 0 := by
  induction n with
  | zero => rfl
  | succ n ih => simp [countOnes, ih]

/-- Two vectors' weights are those of their sum and, twice, of what they have in common. -/
theorem countOnes_xor_add (n : Nat) (f g : Nat → Bool) :
    countOnes n (fun j => f j ^^ g j) + 2 * countOnes n (fun j => f j && g j) = countOnes n f + countOnes n g := by
  induction n with
  | zero => rfl
  | succ n ih => simp only [countOnes]; cases f n <;> cases g n <;> simp <;> omega

/-- `countOnes_xor_add` for vectors. -/
theorem wt_xor_add {n : Nat} (v w : BitVec n) :
    wt (v ^^^ w) + 2 * countOnes n (fun j => elem v j && elem w j) = wt v + wt w := by
  rw [wt, countOnes_congr fun j _ => elem_xor v w j]
  exact countOnes_xor_add n _ _

theorem countOnes_rotate_one (f : Nat → Bool) : countOnes 11 (fun k => f ((k + 1) % 11)) = countOnes 11 f := by
  simp only [countOnes, Nat.reduceAdd, Nat.reduceMod]
  omega

/-- A rotation does not change how many of eleven bits are 1. -/
theorem countOnes_rotate (f : Nat → Bool) (r : Nat) : countOnes 11 (fun k => f ((k + r) % 11)) = countOnes 11 f := by
  induction r with
  | zero => exact countOnes_congr fun k hk => by rw [Nat.add_zero, Nat.mod_eq_of_lt hk]
  | succ r ih =>
    rw [← ih, ← countOnes_rotate_one fun k => f ((k + r) % 11)]
    exact countOnes_congr fun k _ => congrArg f (by omega)

/-- A vector that is not 0 is a unit vector added to a vector lighter by 1, which lacks that element. -/
theorem exists_xor_unit12 {a : BitVec 12} (ha : a ≠ 0) :
    ∃ b, ∃ i < 12, a = b ^^^ unit12 i ∧ elem b i = false ∧ wt a = wt b + 1 := by
  obtain ⟨i, hi, hai⟩ : ∃ i < 12, elem a i = true := by
    by_contra hnone
    simp only [not_exists, not_and, Bool.not_eq_true] at hnone
    exact ha (elem_ext fun j hj => by simpa using hnone j hj)
  obtain ⟨b, rfl⟩ : ∃ b, a = b ^^^ unit12 i := ⟨a ^^^ unit12 i, by simp⟩
  have hbi : elem b i = false := by simpa [elem_xor, elem_unit12 hi hi] using hai
  have hcommon : countOnes 12 (fun j => elem b j && elem (unit12 i) j) = 0 := by
    rw [countOnes_congr (g := fun _ => false), countOnes_false]
    intro j hj
    rw [elem_unit12 hi hj]
    by_cases hji : j = i <;> simp [hji, hbi]
  have hadd := wt_xor_add b (unit12 i)
  rw [hcommon, wt_unit12 hi] at hadd
  exact ⟨b, i, hi, rfl, hbi, by omega⟩

theorem eq_unit12_of_wt_one {a : BitVec 12} (ha : wt a = 1) : ∃ i < 12, a = unit12 i := by
  obtain ⟨b, i, hi, hab, -, hwt⟩ := exists_xor_unit12 (a := a) (by rintro rfl; simp at ha)
  have hb : b = 0#12 := wt_eq_zero (by omega)
  exact ⟨i, hi, by rw [hab, hb, BitVec.zero_xor]⟩

theorem eq_xor_unit12_of_wt_two {a : BitVec 12} (ha : wt a = 2) :
    ∃ i < 12, ∃ j < 12, i ≠ j ∧ a = unit12 i ^^^ unit12 j := by
  obtain ⟨b, j, hj, rfl, hbj, hwt⟩ := exists_xor_unit12 (a := a) (by rintro rfl; simp at ha)
  obtain ⟨i, hi, rfl⟩ := eq_unit12_of_wt_one (a := b) (by omega)
  exact ⟨i, hi, j, hj, by rintro rfl; simp [elem_unit12 hi hi] at hbj, rfl⟩

/-! ## The rows of B at every seed -/

section rows

variable (seed : BitVec 11)

theorem elem_lowerHalf {r c : Nat} (hr : r < 12) (hc : c < 12) :
    elem (matRow (lowerHalf (buildH seed)) r) c = bEntry seed r c := by
  rw [matRow_lowerHalf _ hr, bRow_buildH _ hr, elem_ofElems]; simp [hc]

/-- B is symmetric at every seed (R83). -/
theorem bEntry_comm (r c : Nat) : bEntry seed r c = bEntry seed c r := by
  by_cases hr : r < 11 <;> by_cases hc : c < 11 <;> simp [bEntry, bhEntry, hr, hc, Nat.add_comm]

theorem bEntry_rotation {r c : Nat} (hr : r < 11) (hc : c < 11) : bEntry seed r c = elem seed ((c + r) % 11) := by
  rw [bEntry, if_pos hc, bhEntry, if_pos hr]

theorem bEntry_lastColumn (r : Nat) : bEntry seed r 11 = decide (r < 11) := rfl

theorem bEntry_lastRow (c : Nat) : bEntry seed 11 c = decide (c < 11) := by
  rw [bEntry_comm, bEntry_lastColumn]

/-- In how many columns rows `r` and `c` of B both have 1. -/
def rowOverlap (r c : Nat) : Nat := countOnes 12 fun k => bEntry seed r k && bEntry seed c k

/-- In how many elements the seed and its rotation by `d` both have 1. -/
def seedOverlap (d : Nat) : Nat := countOnes 11 fun k => elem seed k && elem seed ((k + d) % 11)

theorem rowOverlap_comm (r c : Nat) : rowOverlap seed r c = rowOverlap seed c r :=
  countOnes_congr fun _ _ => Bool.and_comm _ _

/-- Two rotations of the seed overlap as the seed and one rotation do, and both trailing elements are 1. -/
theorem rowOverlap_add {r d : Nat} (h : r + d < 11) : rowOverlap seed r (r + d) = seedOverlap seed d + 1 := by
  have hr : r < 11 := by omega
  have hlast : (bEntry seed r 11 && bEntry seed (r + d) 11) = true := by simp [bEntry_lastColumn, hr, h]
  rw [rowOverlap, countOnes, hlast, seedOverlap,
    ← countOnes_rotate (fun k => elem seed k && elem seed ((k + d) % 11)) r]
  refine congrArg (· + 1) (countOnes_congr fun k hk => ?_)
  rw [bEntry_rotation seed hr hk, bEntry_rotation seed h hk]
  exact congrArg (elem seed ((k + r) % 11) && elem seed ·) (by omega)

/-- Row 11 is eleven 1s, and so overlaps a rotation of the seed in all of it. -/
theorem rowOverlap_last {r : Nat} (hr : r < 11) : rowOverlap seed r 11 = wt seed := by
  have hlast : (bEntry seed r 11 && bEntry seed 11 11) = false := by simp [bEntry_lastColumn]
  rw [rowOverlap, countOnes, hlast, wt, ← countOnes_rotate (elem seed) r]
  refine countOnes_congr fun k hk => ?_
  rw [bEntry_rotation seed hr hk, bEntry_lastRow, decide_eq_true hk, Bool.and_true]

theorem rowOverlap_self {r : Nat} (hr : r < 12) : rowOverlap seed r r = wt (matRow (lowerHalf (buildH seed)) r) :=
  countOnes_congr fun k hk => by rw [Bool.and_self, elem_lowerHalf seed hr hk]

theorem seedOverlap_zero : seedOverlap seed 0 = wt seed :=
  countOnes_congr fun k hk => by rw [Nat.add_zero, Nat.mod_eq_of_lt hk, Bool.and_self]

theorem rowOverlap_lastRow : rowOverlap seed 11 11 = 11 := by
  simp [rowOverlap, bEntry_lastRow, countOnes]

/-- Row `r` of B is the seed and a trailing 1, but for row 11, which is eleven 1s. -/
theorem wt_lowerHalf {r : Nat} (hr : r < 12) :
    wt (matRow (lowerHalf (buildH seed)) r) = if r < 11 then wt seed + 1 else 11 := by
  rw [← rowOverlap_self seed hr]
  split
  case isTrue hlt => rw [← seedOverlap_zero, ← rowOverlap_add seed (d := 0) hlt, Nat.add_zero]
  case isFalse hge =>
    obtain rfl : r = 11 := by omega
    exact rowOverlap_lastRow seed

/-- The weight of a sum of two rows of B. -/
theorem wt_lowerHalf_xor {r c : Nat} (hr : r < 12) (hc : c < 12) :
    wt (matRow (lowerHalf (buildH seed)) r ^^^ matRow (lowerHalf (buildH seed)) c) + 2 * rowOverlap seed r c =
      wt (matRow (lowerHalf (buildH seed)) r) + wt (matRow (lowerHalf (buildH seed)) c) := by
  rw [← wt_xor_add, rowOverlap]
  congr 2
  exact countOnes_congr fun k hk => by rw [elem_lowerHalf seed hr hk, elem_lowerHalf seed hc hk]

/-- Element `c` of row `r` of B taken through B tells whether rows `r` and `c` overlap in an odd number of elements,
as B is symmetric. -/
theorem elem_vecMat_lowerHalf {r c : Nat} (hr : r < 12) (hc : c < 12) :
    elem (vecMat (matRow (lowerHalf (buildH seed)) r) (lowerHalf (buildH seed))) c =
      (rowOverlap seed r c % 2 == 1) := by
  rw [elem_vecMat _ _ hc, rowOverlap, ← xorSum_eq_countOnes_odd]
  refine xorSum_congr fun k hk => ?_
  rw [elem_lowerHalf seed hr hk, elem_lowerHalf seed hk hc, bEntry_comm seed c k]

/-! ## The extended code at every seed -/

theorem encodeMessage_xor (g : BitMatrix 12 23) (m n : BitVec 12) :
    encodeMessage g (m ^^^ n) = encodeMessage g m ^^^ encodeMessage g n := vecMat_xor m n g

theorem encodeMessage_unit12 (g : BitMatrix 12 23) {r : Nat} (hr : r < 12) :
    encodeMessage g (unit12 r) = matRow g r := vecMat_unit12 g hr

/-- The codeword of a unit vector differs from that of 0 in a row of G. -/
theorem encodeMessage_unit12_xor_zero (g : BitMatrix 12 23) {r : Nat} (hr : r < 12) :
    encodeMessage g (unit12 r) ^^^ encodeMessage g 0 = matRow g r := by
  rw [encodeMessage_unit12 g hr, encodeMessage, vecMat_zero]
  exact BitVec.xor_zero

/-- A codeword is `[m, m × B]` without its last element (R82, R95). -/
theorem elem_encodeMessage (m : BitVec 12) {j : Nat} (hj : j < 23) :
    elem (encodeMessage (buildG seed) m) j = elem (joinHalves m (vecMat m (lowerHalf (buildH seed)))) j := by
  rw [encodeMessage, elem_vecMat _ _ hj]
  by_cases hleft : j < 12
  · rw [elem_joinHalves_left _ _ hleft, ← xorSum_and_single hleft (elem m)]
    refine xorSum_congr fun r hr => congrArg (elem m r && ·) ?_
    rw [elem_buildG seed hr hj, gEntry, if_pos hleft]
  · obtain ⟨k, rfl⟩ := Nat.exists_eq_add_of_le (Nat.not_lt.mp hleft)
    rw [elem_joinHalves_right, elem_vecMat _ _ (by omega)]
    refine xorSum_congr fun r hr => congrArg (elem m r && ·) ?_
    rw [elem_buildG seed hr hj, elem_lowerHalf seed hr (by omega), gEntry, if_neg hleft, Nat.add_sub_cancel_left, bEntry,
      if_pos (by omega)]

/-- The last element of `[m, m × B]` is what its weight has over the codeword's. -/
theorem wt_encodeMessage_add (m : BitVec 12) :
    wt (encodeMessage (buildG seed) m) + (elem (vecMat m (lowerHalf (buildH seed))) 11).toNat =
      wt m + wt (vecMat m (lowerHalf (buildH seed))) := by
  rw [← wt_joinHalves, ← elem_joinHalves_right m _ 11, wt, wt,
    countOnes_congr fun j hj => elem_encodeMessage seed m hj]
  rfl

/-- A row of G is the codeword of a unit vector: row 11 is all 1s on the right, and the others are the seed there. -/
theorem wt_buildG_row {r : Nat} (hr : r < 12) :
    wt (matRow (buildG seed) r) = if r < 11 then wt seed + 1 else 12 := by
  have hadd := wt_encodeMessage_add seed (unit12 r)
  rw [encodeMessage_unit12 _ hr, vecMat_unit12 _ hr, wt_unit12 hr, elem_lowerHalf seed hr (by omega),
    bEntry_lastColumn, wt_lowerHalf seed hr] at hadd
  by_cases hlt : r < 11 <;> simp [hlt] at hadd ⊢ <;> omega

/-- The sum of rows 0 and 11 of G has 1 where the seed has 0, and in two elements of the left block. -/
theorem wt_buildG_first_xor_last : wt (matRow (buildG seed) 0 ^^^ matRow (buildG seed) 11) + wt seed = 13 := by
  have hadd := wt_encodeMessage_add seed (unit12 0 ^^^ unit12 11)
  have hrows := wt_lowerHalf_xor seed (r := 0) (c := 11) (by decide) (by decide)
  have hunits : wt (unit12 0 ^^^ unit12 11) = 2 := rfl
  rw [encodeMessage_xor, encodeMessage_unit12 _ (by decide), encodeMessage_unit12 _ (by decide), vecMat_xor,
    vecMat_unit12 _ (by decide), vecMat_unit12 _ (by decide), elem_xor,
    elem_lowerHalf seed (by decide) (by decide), elem_lowerHalf seed (by decide) (by decide), hunits] at hadd
  rw [wt_lowerHalf seed (by decide), wt_lowerHalf seed (by decide), rowOverlap_last seed (by decide)] at hrows
  simp [bEntry_lastColumn] at hadd hrows
  omega

/-- The syndrome of a word is its left half and the product of its right half with B (R102). -/
theorem syndrome_joinHalves (a b : BitVec 12) :
    syndrome (buildH seed) (joinHalves a b) = a ^^^ vecMat b (lowerHalf (buildH seed)) := by
  refine elem_ext fun c hc => ?_
  have hleft : xorSum 12 (fun r => elem (joinHalves a b) r && elem (matRow (buildH seed) r) c) = elem a c := by
    rw [← xorSum_and_single hc (elem a)]
    refine xorSum_congr fun r hr => ?_
    rw [elem_joinHalves_left _ _ hr, matRow_top seed hr, elem_unit12 hr hc]
  rw [syndrome, elem_vecMat _ _ hc, xorSum_add 12 12, hleft, elem_xor, elem_vecMat _ _ hc]
  refine congrArg (elem a c ^^ ·) (xorSum_congr fun r hr => ?_)
  rw [elem_joinHalves_right, matRow_lowerHalf _ hr, bRow]

end rows

/-! ## The admissible seeds -/

/-- The 22 seeds are those of weight 6 that overlap each of their rotations in an odd number of elements; a rotation
by more than 5 is, seen from the other side, one by at most 5. -/
theorem filter_seeds_eq_admissibleSeeds :
    ((List.range 2048).map (BitVec.ofNat 11)).filter
      (fun seed => wt seed == 6 && [1, 2, 3, 4, 5].all fun d => seedOverlap seed d % 2 == 1) =
    Config.admissibleSeeds := by decide +kernel

theorem mem_admissibleSeeds_of_seedOverlap {seed : BitVec 11} (hwt : wt seed = 6)
    (hodd : ∀ d ∈ [1, 2, 3, 4, 5], seedOverlap seed d % 2 = 1) : seed ∈ Config.admissibleSeeds := by
  rw [← filter_seeds_eq_admissibleSeeds, List.mem_filter]
  refine ⟨List.mem_map.mpr ⟨seed.toNat, List.mem_range.mpr seed.isLt, by simp⟩, ?_⟩
  simpa [hwt] using hodd

/-- An admissible seed overlaps each of its rotations in exactly 3 of its 6 elements. -/
theorem seedOverlap_admissibleSeeds : (Config.admissibleSeeds.all fun seed =>
    wt seed == 6 && (List.range 11).all fun d => d == 0 || seedOverlap seed d == 3) = true := by decide +kernel

section admissible

variable {seed : BitVec 11} (h : seed ∈ Config.admissibleSeeds)
include h

theorem wt_of_admissible : wt seed = 6 := by
  have hall := List.all_eq_true.mp seedOverlap_admissibleSeeds seed h
  simp only [Bool.and_eq_true, beq_iff_eq] at hall
  obtain ⟨hwt, -⟩ := hall
  exact hwt

theorem seedOverlap_of_admissible {d : Nat} (hd : d < 11) (h0 : d ≠ 0) : seedOverlap seed d = 3 := by
  have hall := List.all_eq_true.mp seedOverlap_admissibleSeeds seed h
  simp only [Bool.and_eq_true, List.all_eq_true, List.mem_range, Bool.or_eq_true, beq_iff_eq] at hall
  obtain ⟨-, hoverlap⟩ := hall
  exact (hoverlap d hd).resolve_left h0

theorem wt_lowerHalf_of_admissible {r : Nat} (hr : r < 12) :
    wt (matRow (lowerHalf (buildH seed)) r) = if r < 11 then 7 else 11 := by
  rw [wt_lowerHalf seed hr, wt_of_admissible h]

theorem rowOverlap_of_lt {r c : Nat} (hrc : r < c) (hc : c < 12) :
    rowOverlap seed r c = if c < 11 then 4 else 6 := by
  split
  case isTrue hlt =>
    obtain ⟨d, rfl⟩ := Nat.exists_eq_add_of_lt hrc
    rw [Nat.add_assoc r d 1, rowOverlap_add seed (d := d + 1) hlt, seedOverlap_of_admissible h (by omega) (by omega)]
  case isFalse hge =>
    obtain rfl : c = 11 := by omega
    rw [rowOverlap_last seed hrc, wt_of_admissible h]

/-- Two different rows of B are 6 apart. -/
theorem wt_lowerHalf_xor_of_admissible {r c : Nat} (hr : r < 12) (hc : c < 12) (hne : r ≠ c) :
    wt (matRow (lowerHalf (buildH seed)) r ^^^ matRow (lowerHalf (buildH seed)) c) = 6 := by
  wlog hlt : r < c generalizing r c
  · rw [BitVec.xor_comm]; exact this hc hr hne.symm (by omega)
  have hadd := wt_lowerHalf_xor seed hr hc
  rw [wt_lowerHalf_of_admissible h hr, wt_lowerHalf_of_admissible h hc, rowOverlap_of_lt h hlt hc,
    if_pos (show r < 11 by omega)] at hadd
  split at hadd <;> omega

/-- The overlap of two rows of B is odd exactly when they are the same row. -/
theorem rowOverlap_odd_iff {r c : Nat} (hr : r < 12) (hc : c < 12) : rowOverlap seed r c % 2 = 1 ↔ c = r := by
  rcases Nat.lt_trichotomy r c with hlt | rfl | hgt
  · rw [rowOverlap_of_lt h hlt hc]; split <;> omega
  · rw [rowOverlap_self seed hr, wt_lowerHalf_of_admissible h hr]; split <;> simp
  · rw [rowOverlap_comm, rowOverlap_of_lt h hgt hr]; split <;> omega

/-- B takes its own rows to the unit vectors (R87). -/
theorem vecMat_lowerHalf_row {r : Nat} (hr : r < 12) :
    vecMat (matRow (lowerHalf (buildH seed)) r) (lowerHalf (buildH seed)) = unit12 r := by
  refine elem_ext fun c hc => ?_
  rw [elem_vecMat_lowerHalf seed hr hc, elem_unit12 hr hc, Bool.eq_iff_iff, beq_iff_eq, decide_eq_true_iff]
  exact rowOverlap_odd_iff h hr hc

/-- B is its own inverse (R87). -/
theorem vecMat_lowerHalf_twice (v : BitVec 12) :
    vecMat (vecMat v (lowerHalf (buildH seed))) (lowerHalf (buildH seed)) = v :=
  vecMat_self_inverse _ (fun _ => vecMat_lowerHalf_row h) v

/-! ## The weights of the extended code -/

/-- The product of a message that lacks element `i` overlaps row `i` of B in an even number of elements. -/
theorem vecMat_overlap_row_even {b : BitVec 12} {i : Nat} (hi : i < 12) (hbi : elem b i = false) :
    countOnes 12 (fun k => elem (vecMat b (lowerHalf (buildH seed))) k &&
      elem (matRow (lowerHalf (buildH seed)) i) k) % 2 = 0 := by
  have hodd : elem (vecMat (vecMat b (lowerHalf (buildH seed))) (lowerHalf (buildH seed))) i = false := by
    rw [vecMat_lowerHalf_twice h, hbi]
  rw [elem_vecMat _ _ hi, xorSum_eq_countOnes_odd, beq_eq_false_iff_ne] at hodd
  rw [countOnes_congr (g := fun k => elem (vecMat b (lowerHalf (buildH seed))) k &&
    elem (matRow (lowerHalf (buildH seed)) k) i) fun k hk => ?_]
  · omega
  · rw [elem_lowerHalf seed hi hk, elem_lowerHalf seed hk hi, bEntry_comm]

/-- The extended code is doubly even: the weight of `[a, a × B]` is a multiple of 4. -/
theorem four_dvd_wt_extended (a : BitVec 12) : 4 ∣ wt a + wt (vecMat a (lowerHalf (buildH seed))) := by
  induction hn : wt a generalizing a with
  | zero => rw [wt_eq_zero hn, vecMat_zero]; simp
  | succ n ih =>
    have ha : a ≠ 0 := by rintro rfl; simp at hn
    obtain ⟨b, i, hi, rfl, hbi, hwt⟩ := exists_xor_unit12 ha
    have hb := ih b (by omega)
    have hadd := wt_xor_add (vecMat b (lowerHalf (buildH seed))) (matRow (lowerHalf (buildH seed)) i)
    have heven := vecMat_overlap_row_even h hi hbi
    rw [wt_lowerHalf_of_admissible h hi] at hadd
    rw [vecMat_xor, vecMat_unit12 _ hi]
    split at hadd <;> omega

/-- A message of weight 1 gives a row of B, one of weight 2 the sum of two. -/
theorem eight_le_wt_extended_of_light {a : BitVec 12} (ha : a ≠ 0) (hlight : wt a ≤ 2) :
    8 ≤ wt a + wt (vecMat a (lowerHalf (buildH seed))) := by
  have hpos : wt a ≠ 0 := fun h0 => ha (wt_eq_zero h0)
  obtain hone | htwo : wt a = 1 ∨ wt a = 2 := by omega
  · obtain ⟨i, hi, rfl⟩ := eq_unit12_of_wt_one hone
    rw [vecMat_unit12 _ hi, hone, wt_lowerHalf_of_admissible h hi]
    split <;> omega
  · obtain ⟨i, hi, j, hj, hij, rfl⟩ := eq_xor_unit12_of_wt_two htwo
    rw [vecMat_xor, vecMat_unit12 _ hi, vecMat_unit12 _ hj, htwo, wt_lowerHalf_xor_of_admissible h hi hj hij]

/-- A word `[a, a × B]` that is not 0 has weight 8 or more: the weight is a multiple of 4, and where one half is light,
the code being its own mirror image, the halves are those of a light message. -/
theorem eight_le_wt_extended {a : BitVec 12} (ha : a ≠ 0) :
    8 ≤ wt a + wt (vecMat a (lowerHalf (buildH seed))) := by
  have hdvd := four_dvd_wt_extended h a
  by_cases hlight : wt a ≤ 2
  · exact eight_le_wt_extended_of_light h ha hlight
  by_cases hlight' : wt (vecMat a (lowerHalf (buildH seed))) ≤ 2
  · have hne : vecMat a (lowerHalf (buildH seed)) ≠ 0 := fun h0 => ha (by
      rw [← vecMat_lowerHalf_twice h a, h0, vecMat_zero])
    have hmirror := eight_le_wt_extended_of_light h hne hlight'
    rwa [vecMat_lowerHalf_twice h, Nat.add_comm] at hmirror
  · omega

/-- A codeword with its even-parity bit is the word `[m, m × B]` (R87). -/
theorem appendBit_encodeMessage (m : BitVec 12) :
    appendBit (encodeMessage (buildG seed) m) (wt (encodeMessage (buildG seed) m) % 2 == 1) =
      joinHalves m (vecMat m (lowerHalf (buildH seed))) := by
  refine elem_ext fun j hj => ?_
  rcases Nat.lt_succ_iff_lt_or_eq.mp hj with hlt | rfl
  · rw [elem_appendBit_left _ _ hlt, elem_encodeMessage seed m hlt]
  · have hdvd := four_dvd_wt_extended h m
    rw [← wt_encodeMessage_add] at hdvd
    rw [elem_appendBit_right, elem_joinHalves_right m _ 11, Bool.eq_iff_iff, beq_iff_eq]
    cases hlast : elem (vecMat m (lowerHalf (buildH seed))) 11 <;> simp [hlast] at hdvd ⊢ <;> omega

/-- Two different messages have codewords at least 7 apart (R88): their sum's codeword lacks one element of a word of
weight 8 or more. -/
theorem seven_le_wt_encodeMessage_xor {m n : BitVec 12} (hne : m ≠ n) :
    7 ≤ wt (encodeMessage (buildG seed) m ^^^ encodeMessage (buildG seed) n) := by
  have hsum : m ^^^ n ≠ 0 := fun h0 => hne (BitVec.xor_eq_zero_iff.mp h0)
  have hext := eight_le_wt_extended h hsum
  have hadd := wt_encodeMessage_add seed (m ^^^ n)
  have hlast := Bool.toNat_le (elem (vecMat (m ^^^ n) (lowerHalf (buildH seed))) 11)
  rw [← encodeMessage_xor]
  omega

end admissible

/-- Settles O46: a row of G is the codeword of a unit vector. -/
theorem matricesFitTogether : Obligations.MatricesFitTogether := by
  intro seed h
  refine ⟨fun r c hr hc => ?_, fun r hr => ?_, fun r hr => ?_, fun r hr => ?_, fun m => ?_⟩
  · rw [entry_eq _ hc, entry_eq _ hr, elem_lowerHalf seed hr hc, elem_lowerHalf seed hc hr, bEntry_comm]
  · rw [rowValue_eq]; exact vecMat_lowerHalf_row h hr
  · rw [rowValue_eq, weight_eq_wt, wt_buildG_row seed hr, wt_of_admissible h]
  · rw [rowValue_eq, rowValue_eq, weight_eq_wt, append_eq, pair_eq, ← encodeMessage_unit12 _ hr,
      ← vecMat_unit12 (lowerHalf (buildH seed)) hr]
    exact appendBit_encodeMessage h (unit12 r)
  · rw [extendedWord, pair_eq, syndrome_joinHalves, vecMat_lowerHalf_twice h, BitVec.xor_self]; rfl

/-! ## R89 -/

section converse

variable {seed : BitVec 11}

/-- Where B is its own inverse, the seed overlaps each of its rotations in an odd number of elements. -/
theorem seedOverlap_odd_of_self_inverse {d : Nat}
    (hself : ∀ v, vecMat (vecMat v (lowerHalf (buildH seed))) (lowerHalf (buildH seed)) = v)
    (hd : d < 11) (h0 : d ≠ 0) : seedOverlap seed d % 2 = 1 := by
  have helem := congrArg (elem · d) (hself (unit12 0))
  simp only [vecMat_unit12 _ (show 0 < 12 by decide)] at helem
  rw [elem_vecMat_lowerHalf seed (by decide) (by omega), elem_unit12 (by decide) (by omega), decide_eq_false h0,
    beq_eq_false_iff_ne, ← Nat.zero_add d, rowOverlap_add seed (by omega)] at helem
  omega

/-- Where the codewords are 7 apart, those of row 0 and of rows 0 and 11 leave the seed no weight but 6. -/
theorem wt_seed_of_seven_apart
    (hdist : ∀ m n, m ≠ n → 7 ≤ wt (encodeMessage (buildG seed) m ^^^ encodeMessage (buildG seed) n)) :
    wt seed = 6 := by
  have hfirst := hdist (unit12 0) 0 (by decide)
  have hlast := hdist (unit12 0) (unit12 11) (by decide)
  rw [encodeMessage_unit12_xor_zero _ (by decide), wt_buildG_row seed (by decide), if_pos (by decide)] at hfirst
  rw [encodeMessage_unit12 _ (by decide), encodeMessage_unit12 _ (by decide)] at hlast
  have hsum := wt_buildG_first_xor_last seed
  omega

end converse

/-- Settles O45: a seed with R89's properties has weight 6 and odd overlaps, and an admissible seed has a code of
minimum distance 7. -/
theorem admissibleSeedsAreExactlyThese : Obligations.AdmissibleSeedsAreExactlyThese := by
  simp only [Obligations.AdmissibleSeedsAreExactlyThese, weight_eq_wt]
  refine ⟨rfl, by decide, by decide, fun seed => ⟨fun h => ⟨vecMat_lowerHalf_twice h, fun m n =>
    seven_le_wt_encodeMessage_xor h, unit12 0, 0, ?_⟩, fun ⟨hself, hdist, _⟩ => ?_⟩⟩
  · rw [encodeMessage_unit12_xor_zero _ (by decide), wt_buildG_row seed (by decide), wt_of_admissible h]; rfl
  · refine mem_admissibleSeeds_of_seedOverlap (wt_seed_of_seven_apart hdist) fun d hd => ?_
    simp only [List.mem_cons, List.not_mem_nil, or_false] at hd
    exact seedOverlap_odd_of_self_inverse hself (by omega) (by omega)

end Sys2Proof.Machine
end

section
/-! The encoder and the parity extension (R95 to R101). A bit of a product is a parity; a codeword is read off
`[m, m × B]`; and the extension of a received word is the codeword with its even-parity bit plus the extended error. -/

namespace Sys2Proof.Machine

open Sys2Proof.Spec

/-! ## ENC and the product with G (R95 to R97) -/

/-- The register bit at which an element stands (R11). -/
theorem getLsbD_eq_elem {n : Nat} (v : BitVec n) {j : Nat} (hj : j < n) : v.getLsbD (n - 1 - j) = elem v j := by
  simp [elem, BitVec.getMsbD, hj]

theorem getLsbD_vecMat {n m : Nat} (v : BitVec n) (M : BitMatrix n m) {k : Nat} (hk : k < m) :
    (vecMat v M).getLsbD (m - 1 - k) = parity n fun r => v.getLsbD (n - 1 - r) && entry M r k := by
  rw [getLsbD_eq_elem _ hk, elem_vecMat _ _ hk, parity_eq_xorSum]
  exact xorSum_congr fun r hr => by rw [getLsbD_eq_elem _ hr, entry_eq _ hk]

theorem getLsbD_encodeMessage (g : BitMatrix 12 23) (m : BitVec 12) {k : Nat} (hk : k < 23) :
    (encodeMessage g m).getLsbD (22 - k) = parity 12 fun r => m.getLsbD (11 - r) && entry g r k :=
  getLsbD_vecMat m g hk

theorem getLsbD_zext24 {n : Nat} (v : BitVec n) {b : Nat} (hb : b < 24) : (zext24 v).getLsbD b = v.getLsbD b := by
  simp [zext24, hb]

theorem getLsbD_operand (s : State) {len b : Nat} (hb : b < len) : (s.operand len).getLsbD b = s.din.getLsbD b := by
  simp [State.operand, hb]

theorem parity_congr {n : Nat} {f g : Nat → Bool} (h : ∀ j < n, f j = g j) : parity n f = parity n g := by
  rw [parity_eq_xorSum, parity_eq_xorSum, xorSum_congr h]

theorem exec_enc (s : State) :
    exec .enc s = .next (s.complete.setDout (zext24 (encodeMessage s.g (s.operand 12)))) := rfl

/-- Settles O35: DOUT holds the codeword, whose bits are those of the product. -/
theorem encWritesTheProductWithG : Obligations.EncWritesTheProductWithG := by
  intro s
  refine ⟨_, exec_enc s, rfl, ?_, fun k hk => ?_⟩
  · rw [State.setDout_dout, getLsbD_zext24 _ (by decide), BitVec.getLsbD_of_ge _ _ (by decide)]
  · rw [State.setDout_dout, getLsbD_zext24 _ (by omega), getLsbD_encodeMessage _ _ hk]
    exact parity_congr fun r _ => by rw [getLsbD_operand s (by omega)]

theorem entry_buildG_right (seed : BitVec 11) {r k : Nat} (hr : r < 12) (hk : k < 11) :
    entry (buildG seed) r (12 + k) = bhEntry seed r k := by
  rw [entry_eq _ (by omega), elem_buildG seed hr (by omega), gEntry, if_neg (by omega), Nat.add_sub_cancel_left]

/-- Settles O36: the left half of the codeword is the message, as it is of `[m, m × B]`, and its right half the product
with the right block. -/
theorem encodeIsSystematicAndLinear : Obligations.EncodeIsSystematicAndLinear := by
  intro seed m n
  refine ⟨fun j hj => ?_, fun k hk => ?_, encodeMessage_xor _ m n, vecMat_zero _⟩
  · rw [getLsbD_eq_elem (n := 23) _ (by omega), elem_encodeMessage seed m (by omega), elem_joinHalves_left _ _ hj,
      getLsbD_eq_elem m hj]
  · rw [show 10 - k = 22 - (12 + k) by omega, getLsbD_encodeMessage _ _ (by omega)]
    exact parity_congr fun r hr => by rw [entry_buildG_right seed hr hk]

/-! ## EXT and the parity bit (R99, R100) -/

theorem append_toNat (w : BitVec 23) (p : Bool) : (append w p).toNat = 2 * w.toNat + p.toNat := by
  have hw := w.isLt
  have hp := Bool.toNat_le p
  rw [append, BitVec.toNat_ofNat, Nat.mod_eq_of_lt (by omega), Nat.mul_comm]

theorem toNat_mod_two_beq_one (n : Nat) : (n % 2 == 1).toNat = n % 2 := by
  rcases Nat.mod_two_eq_zero_or_one n with h | h <;> rw [h] <;> rfl

theorem extendWord_eq_append (w : BitVec 23) : extendWord w = append w ((wt w + 1) % 2 == 1) := (append_eq _ _).symm

theorem extendWord_toNat (w : BitVec 23) : (extendWord w).toNat = 2 * w.toNat + (wt w + 1) % 2 := by
  rw [extendWord_eq_append, append_toNat, toNat_mod_two_beq_one]

theorem wt_extendWord (w : BitVec 23) : wt (extendWord w) = wt w + (wt w + 1) % 2 := by
  rw [extendWord, wt_appendBit, toNat_mod_two_beq_one]

theorem wt_extendWord_odd (w : BitVec 23) : wt (extendWord w) % 2 = 1 := by
  rw [wt_extendWord]; omega

theorem operand_eq_ofNat (s : State) (len : Nat) : s.operand len = BitVec.ofNat len s.din.toNat := by
  rw [State.operand, BitVec.ofNat_toNat]

theorem exec_ext (s : State) :
    exec .ext s = .next ((s.complete.setExt (extendWord (s.operand 23))).setDout (extendWord (s.operand 23))) := rfl

/-- Settles O37: EXT and DOUT hold the extended word, of odd weight. -/
theorem extAppendsTheParityBit : Obligations.ExtAppendsTheParityBit := by
  intro s
  refine ⟨_, exec_ext s, rfl, rfl, ?_, ?_⟩
  · rw [State.setDout_extReg, State.setExt_extReg, extendWord_toNat, operand_eq_ofNat, weight_eq_wt,
      BitVec.toNat_ofNat]
  · rw [State.setDout_extReg, State.setExt_extReg, weight_eq_wt, wt_extendWord_odd]

/-! ## The extension of a received word (R101) -/

/-- A 23-bit error is extended as a word is. -/
theorem extendedError_eq_extendWord (e : BitVec 23) : extendedError e = extendWord e := by
  rw [extendedError, append_eq, weight_eq_wt, extendWord]

theorem weight_extendedError (e : BitVec 23) :
    weight (extendedError e) = if weight e % 2 = 0 then weight e + 1 else weight e := by
  rw [extendedError_eq_extendWord, weight_eq_wt, weight_eq_wt, wt_extendWord]
  split <;> omega

theorem extendWord_zero : extendWord 0#23 = 0x000001 := by decide

/-- The extension of a sum is one word with its even-parity bit plus the extension of the other, as the parity of a
weight is linear. -/
theorem extendWord_xor (c e : BitVec 23) :
    extendWord (c ^^^ e) = appendBit c (wt c % 2 == 1) ^^^ extendWord e := by
  have hparity : ((wt (c ^^^ e) + 1) % 2 == 1) = ((wt c % 2 == 1) ^^ ((wt e + 1) % 2 == 1)) := by
    have hsum := wt_xor_mod c e
    rw [show (wt (c ^^^ e) + 1) % 2 = (wt c % 2 + (wt e + 1) % 2) % 2 by omega]
    rcases Nat.mod_two_eq_zero_or_one (wt c) with hc | hc <;>
      rcases Nat.mod_two_eq_zero_or_one (wt e + 1) with he | he <;> rw [hc, he] <;> rfl
  rw [extendWord, extendWord, appendBit_xor, hparity]

section admissible

variable {seed : BitVec 11} (h : seed ∈ Config.admissibleSeeds)
include h

/-- The even-parity bit takes a codeword to the extended code. -/
theorem appendBit_eq_extendedWord (m : BitVec 12) :
    appendBit (encodeMessage (buildG seed) m) (wt (encodeMessage (buildG seed) m) % 2 == 1) =
      extendedWord (buildH seed) m := by
  rw [extendedWord, pair_eq, appendBit_encodeMessage h]

theorem syndrome_extendedWord (m : BitVec 12) : syndrome (buildH seed) (extendedWord (buildH seed) m) = 0 := by
  obtain ⟨-, -, -, -, hsyndrome⟩ := matricesFitTogether seed h
  exact hsyndrome m

theorem extendWord_encodeMessage_xor (m : BitVec 12) (e : BitVec 23) :
    extendWord (encodeMessage (buildG seed) m ^^^ e) = extendedWord (buildH seed) m ^^^ extendedError e := by
  rw [extendWord_xor, appendBit_eq_extendedWord h, extendedError_eq_extendWord]

theorem extendWord_encodeMessage (m : BitVec 12) :
    extendWord (encodeMessage (buildG seed) m) = extendedWord (buildH seed) m ^^^ 0x000001 := by
  have hzero := extendWord_encodeMessage_xor h m 0#23
  rwa [BitVec.xor_zero, extendedError_eq_extendWord, extendWord_zero] at hzero

end admissible

/-- Settles O49: the block's matrices are those of an admissible seed, and an error-free codeword is a received word
with the error 0. -/
theorem extensionOfAReceivedWord : Obligations.ExtensionOfAReceivedWord := by
  rintro s ⟨⟨seed, h, hg, hh⟩, -⟩ m e
  rw [hg, hh]
  refine ⟨?_, syndrome_extendedWord h m, extendWord_encodeMessage h m, extendWord_encodeMessage_xor h m e,
    weight_extendedError e, fun hlight => ?_⟩
  · rw [append_eq, weight_eq_wt, appendBit_eq_extendedWord h]
  · rw [weight_extendedError]; split <;> omega

end Sys2Proof.Machine
end

section
/-! The search and the commands of the decoder (R106 to R124). Each step of the search is an equation, and the five
equations together an inversion; each command is said once, and its register forms are read off. -/

namespace Sys2Proof.Machine

open Sys2Proof.Spec

/-! ## The steps of the search (R106, R108) -/

section search

variable {h : BitMatrix 24 12} {s : BitVec 12} {i : Nat}

theorem matchRow_eq_some (hi : i < 12) (hrow : wt (s ^^^ bRow h i) ≤ 2) (hfirst : ∀ j < i, 2 < wt (s ^^^ bRow h j)) :
    matchRow h s = some i :=
  firstMatch_some.mpr ⟨hi, decide_eq_true hrow, fun j hj => decide_eq_false (Nat.not_le.mpr (hfirst j hj))⟩

theorem matchRow_eq_none (hrows : ∀ i < 12, 2 < wt (s ^^^ bRow h i)) : matchRow h s = none :=
  firstMatch_none.mpr fun i hi => decide_eq_false (Nat.not_le.mpr (hrows i hi))

theorem search_step3 (hs : wt s ≤ 3) : search h s = ⟨joinHalves s 0, caseS3, 0⟩ := if_pos hs

theorem search_step4 (hs : 3 < wt s) (hm : matchRow h s = some i) :
    search h s = ⟨joinHalves (s ^^^ bRow h i) (unit12 i), caseS4, BitVec.ofNat 4 i⟩ := by
  rw [search, if_neg (Nat.not_le.mpr hs), hm]

theorem search_eq_searchCheck (hs : 3 < wt s) (hm : matchRow h s = none) :
    search h s = searchCheck h (vecMat s (lowerHalf h)) := by
  rw [search, if_neg (Nat.not_le.mpr hs), hm]

theorem searchCheck_step5 (ht : wt s ≤ 3) : searchCheck h s = ⟨joinHalves 0 s, caseS5, 0⟩ := if_pos ht

theorem searchCheck_step6 (ht : 3 < wt s) (hm : matchRow h s = some i) :
    searchCheck h s = ⟨joinHalves (unit12 i) (s ^^^ bRow h i), caseS6, BitVec.ofNat 4 i⟩ := by
  rw [searchCheck, if_neg (Nat.not_le.mpr ht), hm]

theorem searchCheck_step7 (ht : 3 < wt s) (hm : matchRow h s = none) : searchCheck h s = ⟨0, caseS7, 0⟩ := by
  rw [searchCheck, if_neg (Nat.not_le.mpr ht), hm]

end search

/-- What each step of the search answers for the syndrome `s`, and the test it passed; step 7 with the tests that all
failed (R106). -/
inductive SearchStep (h : BitMatrix 24 12) (s : BitVec 12) : SearchResult → Prop
  | step3 (hs : wt s ≤ 3) : SearchStep h s ⟨joinHalves s 0, caseS3, 0⟩
  | step4 (i : Nat) (hi : i < 12) (hrow : wt (s ^^^ bRow h i) ≤ 2) :
    SearchStep h s ⟨joinHalves (s ^^^ bRow h i) (unit12 i), caseS4, BitVec.ofNat 4 i⟩
  | step5 (ht : wt (vecMat s (lowerHalf h)) ≤ 3) : SearchStep h s ⟨joinHalves 0 (vecMat s (lowerHalf h)), caseS5, 0⟩
  | step6 (i : Nat) (hi : i < 12) (hrow : wt (vecMat s (lowerHalf h) ^^^ bRow h i) ≤ 2) :
    SearchStep h s ⟨joinHalves (unit12 i) (vecMat s (lowerHalf h) ^^^ bRow h i), caseS6, BitVec.ofNat 4 i⟩
  | step7 (hs : 3 < wt s) (hrows : ∀ i < 12, 2 < wt (s ^^^ bRow h i)) (ht : 3 < wt (vecMat s (lowerHalf h)))
    (hrows' : ∀ i < 12, 2 < wt (vecMat s (lowerHalf h) ^^^ bRow h i)) : SearchStep h s ⟨0, caseS7, 0⟩

/-- The search ends in one of its steps. -/
theorem searchStep_search (h : BitMatrix 24 12) (s : BitVec 12) : SearchStep h s (search h s) := by
  by_cases hs : wt s ≤ 3
  · rw [search_step3 hs]; exact .step3 hs
  rcases hm : matchRow h s with _ | i
  · rw [search_eq_searchCheck (Nat.not_le.mp hs) hm]
    by_cases ht : wt (vecMat s (lowerHalf h)) ≤ 3
    · rw [searchCheck_step5 ht]; exact .step5 ht
    rcases hm' : matchRow h (vecMat s (lowerHalf h)) with _ | i
    · rw [searchCheck_step7 (Nat.not_le.mp ht) hm']
      exact .step7 (Nat.not_le.mp hs) (fun i => matchRow_none hm) (Nat.not_le.mp ht) (fun i => matchRow_none hm')
    · obtain ⟨hi, hrow, -⟩ := matchRow_some hm'
      rw [searchCheck_step6 (Nat.not_le.mp ht) hm']; exact .step6 i hi hrow
  · obtain ⟨hi, hrow, -⟩ := matchRow_some hm
    rw [search_step4 (Nat.not_le.mp hs) hm]; exact .step4 i hi hrow

/-! ## What each command answers -/

theorem exec_syn (s : State) :
    exec .syn s =
      .next ((s.complete.setSyn (syndrome s.h (s.operand 24))).setDout (zext24 (syndrome s.h (s.operand 24)))) := rfl

theorem exec_srch (s : State) :
    exec .srch s = .next (((s.complete.setEpat (search s.h (s.operand 12)).pattern).setDout
      (search s.h (s.operand 12)).pattern).setCase (search s.h (s.operand 12)).caseCode (search s.h (s.operand 12)).idx) :=
  rfl

theorem exec_corr (s : State) : exec .corr s = .next (s.complete.setDout (correct (s.operand 24) s.epat)) := rfl

theorem exec_decR (s : State) :
    exec .decR s = .next (((s.complete.setExt (extendWord (s.operand 23))).setDout
      (zext24 (rawHead (s.operand 23)))).setCase caseRaw 0) := rfl

/-- What the search answers for a received word: that for the syndrome of its extension (R117). -/
def searchReceived (h : BitMatrix 24 12) (w : BitVec 23) : SearchResult := search h (syndrome h (extendWord w))

/-- The received word, extended and corrected (R117). -/
def correctReceived (h : BitMatrix 24 12) (w : BitVec 23) : BitVec 24 :=
  correct (extendWord w) (searchReceived h w).pattern

/-! ## Register values -/

@[simp] theorem operand_24 (s : State) : s.operand 24 = s.din := BitVec.setWidth_eq s.din

theorem operand_23_toNat (s : State) : (s.operand 23).toNat = s.din.toNat % 2 ^ 23 := BitVec.toNat_setWidth 23 s.din

/-- A syndrome the host moves into DIN is the operand of SRCH. -/
theorem operand_12_of_din {s : State} {y : BitVec 12} (h : s.din = BitVec.ofNat 24 y.toNat) : s.operand 12 = y := by
  have hy : y.toNat < 4096 := y.isLt
  apply BitVec.eq_of_toNat_eq
  rw [State.operand, h, BitVec.toNat_setWidth, BitVec.toNat_ofNat]
  omega

theorem zext24_toNat {n : Nat} (hn : n ≤ 24) (v : BitVec n) : (zext24 v).toNat = v.toNat :=
  BitVec.toNat_setWidth_of_le hn

theorem rawHead_toNat (w : BitVec 23) : (rawHead w).toNat = w.toNat / 2 ^ 11 := by
  have hw := w.isLt
  rw [rawHead, BitVec.extractLsb'_toNat, Nat.shiftRight_eq_div_pow]
  omega

/-- A truncated vector stands in a register as the whole vector shifted right by 12 (R116). -/
theorem zext24_truncate (v : BitVec 24) : zext24 (truncate v) = v >>> 12 := by
  have hv := v.isLt
  apply BitVec.eq_of_toNat_eq
  rw [zext24_toNat (by decide), truncate, BitVec.extractLsb'_toNat, BitVec.toNat_ushiftRight,
    Nat.shiftRight_eq_div_pow]
  omega

/-- DEC.C, its result in register form (R117, R122). -/
theorem exec_decC (s : State) :
    exec .decC s = .next (((((s.complete.setExt (extendWord (s.operand 23))).setSyn
      (syndrome s.h (extendWord (s.operand 23)))).setEpat (searchReceived s.h (s.operand 23)).pattern).setDout
      (correctReceived s.h (s.operand 23) >>> 12)).setCase (searchReceived s.h (s.operand 23)).caseCode
      (searchReceived s.h (s.operand 23)).idx) := by
  rw [← zext24_truncate]; rfl

/-- STATUS.IDX holds any row of B (R34). -/
theorem rowIdx_toNat {i : Nat} (hi : i < 12) : (BitVec.ofNat 4 i).toNat = i := Nat.mod_eq_of_lt (by omega)

/-! ## The commands in the spec's register forms -/

/-- A vector whose bits are those of the product with B is that product (R106). -/
theorem eq_vecMat_lowerHalf {h : BitMatrix 24 12} {s t : BitVec 12}
    (ht : ∀ k < 12, t.getLsbD (11 - k) = parity 12 fun r => s.getLsbD (11 - r) && (bRow h r).getLsbD (11 - k)) :
    t = vecMat s (lowerHalf h) := by
  refine elem_ext fun k hk => ?_
  rw [← getLsbD_eq_elem t hk, ← getLsbD_eq_elem (vecMat s (lowerHalf h)) hk, ht k hk, getLsbD_vecMat _ _ hk]
  refine parity_congr fun r hr => ?_
  rw [entry_eq _ hk, matRow_lowerHalf _ hr, ← getLsbD_eq_elem _ hk]

/-- Settles O40: each step's premise picks its equation of the search. -/
theorem srchRunsTheSteps : Obligations.SrchRunsTheSteps := by
  intro s
  refine ⟨_, exec_srch s, rfl, rfl, fun S T b hS hb hT => ?_⟩
  obtain rfl : b = bRow s.h := funext fun i => by rw [hb, rowValue_eq, bRow]
  obtain rfl := eq_vecMat_lowerHalf hT
  simp only [State.setCase_epat, State.setDout_epat, State.setEpat_epat, State.setCase_caseCode, State.setCase_idx,
    operand_eq_ofNat, ← hS, weight_eq_wt, pair_eq]
  refine ⟨fun hs => ?_, fun hs => ⟨fun i hi hrow hfirst => ?_, fun hrows => ?_⟩⟩
  · rw [search_step3 hs]; exact ⟨rfl, rfl, rfl⟩
  · rw [search_step4 hs (matchRow_eq_some hi hrow hfirst)]; exact ⟨rfl, rfl, rowIdx_toNat hi⟩
  rw [search_eq_searchCheck hs (matchRow_eq_none hrows)]
  refine ⟨fun ht => ?_, fun ht => ⟨fun i hi hrow hfirst => ?_, fun hrows' => ?_⟩⟩
  · rw [searchCheck_step5 ht]; exact ⟨rfl, rfl, rfl⟩
  · rw [searchCheck_step6 ht (matchRow_eq_some hi hrow hfirst)]; exact ⟨rfl, rfl, rowIdx_toNat hi⟩
  · rw [searchCheck_step7 ht (matchRow_eq_none hrows')]; exact ⟨rfl, rfl, rfl⟩

/-- Settles O41: the operand of CORR is the whole of DIN. -/
theorem corrXorsDinWithEpat : Obligations.CorrXorsDinWithEpat := by
  intro s
  rw [exec_corr, operand_24]; rfl

/-- The extended word of DIN[22:0] as a number (R99). -/
theorem extendWord_operand_toNat (s : State) :
    (extendWord (s.operand 23)).toNat =
      2 * (s.din.toNat % 2 ^ 23) + (weight (BitVec.ofNat 23 s.din.toNat) + 1) % 2 := by
  rw [extendWord_toNat, operand_23_toNat, operand_eq_ofNat, weight_eq_wt]

/-- Settles O42: DOUT holds the head of the operand, and EXT its extension. -/
theorem decRawReturnsTheHeadUnmodified : Obligations.DecRawReturnsTheHeadUnmodified := by
  intro s
  refine ⟨_, exec_decR s, rfl, ?_, extendWord_operand_toNat s⟩
  rw [State.setCase_dout, State.setDout_dout, zext24_toNat (by decide), rawHead_toNat, operand_23_toNat]

theorem getLsbD_syndrome (h : BitMatrix 24 12) (w : BitVec 24) {k : Nat} (hk : k < 12) :
    (syndrome h w).getLsbD (11 - k) = parity 24 fun r => w.getLsbD (23 - r) && entry h r k :=
  getLsbD_vecMat w h hk

/-- SRCH of a syndrome that the host moved into DIN (R112). -/
theorem exec_srch_of_din {s : State} {y : BitVec 12} (h : s.din = BitVec.ofNat 24 y.toNat) :
    exec .srch s = .next (((s.complete.setEpat (search s.h y).pattern).setDout (search s.h y).pattern).setCase
      (search s.h y).caseCode (search s.h y).idx) := by
  rw [exec_srch, operand_12_of_din h]

/-- Settles O43, register by register. -/
theorem decCorrectedLeavesEveryStep : Obligations.DecCorrectedLeavesEveryStep := by
  intro s
  refine ⟨_, _, exec_decC s, rfl, extendWord_operand_toNat s, fun k hk => getLsbD_syndrome _ _ hk,
    exec_srch_of_din rfl, rfl, rfl, rfl, ?_⟩
  rw [State.setCase_dout, State.setDout_dout, BitVec.toNat_ushiftRight, Nat.shiftRight_eq_div_pow]
  rfl

/-- Settles O44: each command of the chain reads what DEC.C takes from the one before. -/
theorem decCorrectedIsTheChainOfCommands : Obligations.DecCorrectedIsTheChainOfCommands := by
  intro s w
  refine ⟨_, _, _, _, _, exec_ext _, exec_syn _, exec_srch_of_din rfl, exec_corr _, exec_decC _, ?_⟩
  simp only [operand_24]
  rfl

end Sys2Proof.Machine
end

section
/-! Coset leaders (R104 to R114). Two words of one syndrome differ by a word of the extended code, which is 0 or of
weight 8 or more; so a syndrome has at most one pattern of weight at most 3, and the search finds it wherever there is
one: its tests are on what the halves of such a pattern can weigh. -/

namespace Sys2Proof.Machine

open Sys2Proof.Spec

/-! ## Halves of a 24-bit vector -/

theorem exists_joinHalves (w : BitVec 24) : ∃ a b, w = joinHalves a b := by
  refine ⟨ofElems 12 (elem w), ofElems 12 fun j => elem w (12 + j), halves_ext (fun j hj => ?_) fun j hj => ?_⟩
  · rw [elem_joinHalves_left _ _ hj, elem_ofElems, decide_eq_true hj, Bool.true_and]
  · rw [elem_joinHalves_right, elem_ofElems, decide_eq_true hj, Bool.true_and]

theorem joinHalves_toNat (a b : BitVec 12) : (joinHalves a b).toNat = a.toNat * 2 ^ 12 + b.toNat := by
  have ha := a.isLt
  have hb := b.isLt
  rw [← pair_eq, pair, BitVec.toNat_ofNat, Nat.mod_eq_of_lt (by omega)]

theorem joinHalves_mod (a b : BitVec 12) : (joinHalves a b).toNat % 2 ^ 12 = b.toNat := by
  have hb := b.isLt
  rw [joinHalves_toNat]; omega

theorem joinHalves_div (a b : BitVec 12) : (joinHalves a b).toNat / 2 ^ 12 = a.toNat := by
  have hb := b.isLt
  rw [joinHalves_toNat]; omega

theorem joinHalves_ushiftRight (a b : BitVec 12) : joinHalves a b >>> 12 = joinHalves 0#12 a := by
  apply BitVec.eq_of_toNat_eq
  rw [BitVec.toNat_ushiftRight, Nat.shiftRight_eq_div_pow, joinHalves_div, joinHalves_toNat, BitVec.toNat_zero]
  omega

theorem joinHalves_shiftLeft (a b : BitVec 12) : joinHalves a b <<< 12 = joinHalves b 0#12 := by
  have hb := b.isLt
  apply BitVec.eq_of_toNat_eq
  rw [BitVec.toNat_shiftLeft, Nat.shiftLeft_eq, joinHalves_toNat, joinHalves_toNat, BitVec.toNat_zero]
  omega

theorem unit12_toNat {i : Nat} (hi : i < 12) : (unit12 i).toNat = 2 ^ (11 - i) := by
  interval_cases i <;> rfl

/-! ## The syndrome (R102 to R104) -/

theorem syndrome_xor (h : BitMatrix 24 12) (v w : BitVec 24) :
    syndrome h (v ^^^ w) = syndrome h v ^^^ syndrome h w := vecMat_xor v w h

/-- The syndrome of an error in the parity bit alone is the last row of H (R104). -/
theorem syndrome_one (seed : BitVec 11) : syndrome (buildH seed) 0x000001 = 0xFFE := by
  have hone : (0x000001 : BitVec 24) = joinHalves 0 (unit12 11) := by decide
  have hlast := rowValue_buildH_last seed
  rw [rowValue_eq] at hlast
  rw [hone, syndrome_joinHalves, vecMat_unit12 _ (by decide), matRow_lowerHalf _ (by decide), bRow, hlast]
  rfl

section admissible

variable {seed : BitVec 11} (h : seed ∈ Config.admissibleSeeds)
include h

/-- The kernel of the syndrome is the extended code (R104). -/
theorem syndrome_eq_zero_iff (w : BitVec 24) :
    syndrome (buildH seed) w = 0 ↔ ∃ m, w = extendedWord (buildH seed) m := by
  constructor
  · intro hw
    obtain ⟨a, b, rfl⟩ := exists_joinHalves w
    rw [syndrome_joinHalves] at hw
    obtain rfl := BitVec.xor_eq_zero_iff.mp hw
    exact ⟨_, by rw [extendedWord, pair_eq, vecMat_lowerHalf_twice h]⟩
  · rintro ⟨m, rfl⟩
    exact syndrome_extendedWord h m

theorem four_dvd_wt_extendedWord (m : BitVec 12) : 4 ∣ wt (extendedWord (buildH seed) m) := by
  rw [extendedWord, pair_eq, wt_joinHalves]
  exact four_dvd_wt_extended h m

/-- A word's weight is odd exactly when its syndrome's is. -/
theorem wt_syndrome_mod_two (w : BitVec 24) : wt (syndrome (buildH seed) w) % 2 = wt w % 2 := by
  obtain ⟨a, b, rfl⟩ := exists_joinHalves w
  have hb := four_dvd_wt_extended h b
  rw [syndrome_joinHalves, wt_xor_mod, wt_joinHalves]
  omega

theorem syndrome_ne_zero_of_odd {w : BitVec 24} (hw : wt w % 2 = 1) : syndrome (buildH seed) w ≠ 0 := by
  intro hzero
  have hparity := wt_syndrome_mod_two h w
  rw [hzero, show wt (0 : BitVec 12) = 0 from wt_zero] at hparity
  omega

theorem syndrome_extendWord_encodeMessage (m : BitVec 12) :
    syndrome (buildH seed) (extendWord (encodeMessage (buildG seed) m)) = 0xFFE := by
  rw [extendWord_encodeMessage h, syndrome_xor, syndrome_extendedWord h, syndrome_one]
  rfl

/-! ## Coset leaders (R107, R111) -/

/-- A syndrome has at most one pattern of weight at most 3: the sum of two would be a word of the extended code of
weight at most 6. -/
theorem eq_of_syndrome_eq {e f : BitVec 24} (he : wt e ≤ 3) (hf : wt f ≤ 3)
    (hsyn : syndrome (buildH seed) e = syndrome (buildH seed) f) : e = f := by
  have hzero : syndrome (buildH seed) (e ^^^ f) = 0 := by rw [syndrome_xor, hsyn, BitVec.xor_self]; rfl
  obtain ⟨m, hm⟩ := (syndrome_eq_zero_iff h _).mp hzero
  have hlight := wt_xor_le e f
  by_cases hm0 : m = 0
  · rw [hm0, extendedWord, vecMat_zero] at hm
    exact BitVec.xor_eq_zero_iff.mp hm
  · have heavy := eight_le_wt_extended h hm0
    rw [hm, extendedWord, pair_eq, wt_joinHalves] at hlight
    omega

/-- The pattern a step finds has the syndrome searched for and weight at most 3 (R107). -/
theorem syndrome_of_searchStep {s : BitVec 12} {r : SearchResult} (hstep : SearchStep (buildH seed) s r)
    (hfound : r.caseCode ≠ caseS7) : syndrome (buildH seed) r.pattern = s ∧ wt r.pattern ≤ 3 := by
  cases hstep with
  | step3 hs =>
    rw [syndrome_joinHalves, wt_joinHalves, vecMat_zero]
    simpa using hs
  | step4 i hi hrow =>
    rw [syndrome_joinHalves, wt_joinHalves, vecMat_unit12 _ hi, matRow_lowerHalf _ hi, wt_unit12 hi]
    exact ⟨xor_cancel_right _ _, by omega⟩
  | step5 ht =>
    rw [syndrome_joinHalves, wt_joinHalves, vecMat_lowerHalf_twice h]
    simpa using ht
  | step6 i hi hrow =>
    rw [syndrome_joinHalves, wt_joinHalves, vecMat_xor, vecMat_lowerHalf_twice h, ← matRow_lowerHalf _ hi,
      vecMat_lowerHalf_row h hi, wt_unit12 hi, matRow_lowerHalf _ hi]
    exact ⟨by rw [BitVec.xor_comm s, xor_cancel_left], by omega⟩
  | step7 => exact absurd rfl hfound

/-- The search does not end in step 7 on the syndrome of a pattern of weight at most 3: where its right half has
weight 0 or 1, step 3 or 4 would match; and where it has more, its left half has weight 0 or 1, and step 5 or 6
would. -/
theorem caseCode_ne_caseS7_of_wt_le_three {e : BitVec 24} (he : wt e ≤ 3) :
    (search (buildH seed) (syndrome (buildH seed) e)).caseCode ≠ caseS7 := by
  obtain ⟨a, b, rfl⟩ := exists_joinHalves e
  rw [wt_joinHalves] at he
  have hstep := searchStep_search (buildH seed) (syndrome (buildH seed) (joinHalves a b))
  generalize search (buildH seed) (syndrome (buildH seed) (joinHalves a b)) = r at hstep ⊢
  rw [syndrome_joinHalves] at hstep
  cases hstep with
  | step7 hs hrows ht hrows' =>
    rw [vecMat_xor, vecMat_lowerHalf_twice h] at ht hrows'
    exfalso
    obtain hb | hb | ha | ha : wt b = 0 ∨ wt b = 1 ∨ wt a = 0 ∨ wt a = 1 := by omega
    · rw [wt_eq_zero hb, vecMat_zero] at hs
      simp only [BitVec.ofNat_eq_ofNat, BitVec.xor_zero] at hs
      omega
    · obtain ⟨i, hi, rfl⟩ := eq_unit12_of_wt_one hb
      have hrow := hrows i hi
      rw [vecMat_unit12 _ hi, matRow_lowerHalf _ hi, xor_cancel_right] at hrow
      omega
    · rw [wt_eq_zero ha, vecMat_zero] at ht
      simp only [BitVec.ofNat_eq_ofNat, BitVec.zero_xor] at ht
      omega
    · obtain ⟨i, hi, rfl⟩ := eq_unit12_of_wt_one ha
      have hrow := hrows' i hi
      rw [vecMat_unit12 _ hi, matRow_lowerHalf _ hi, xor_xor_cancel_comm] at hrow
      omega
  | _ => dsimp only; decide

/-- The search finds the pattern of weight at most 3, since what it finds has the same syndrome (R111). -/
theorem pattern_search_syndrome {e : BitVec 24} (he : wt e ≤ 3) :
    (search (buildH seed) (syndrome (buildH seed) e)).pattern = e := by
  obtain ⟨hsyn, hlight⟩ := syndrome_of_searchStep h (searchStep_search _ _) (caseCode_ne_caseS7_of_wt_le_three h he)
  exact eq_of_syndrome_eq h hlight he hsyn

end admissible

/-- A search that does not end in step 7 leaves CASE 1 to 4. -/
theorem caseCode_mem_one_four {h : BitMatrix 24 12} {s : BitVec 12} (hfound : (search h s).caseCode ≠ caseS7) :
    1 ≤ (search h s).caseCode.toNat ∧ (search h s).caseCode.toNat ≤ 4 := by
  have hstep := searchStep_search h s
  generalize search h s = r at hstep hfound ⊢
  cases hstep with
  | step7 => exact absurd rfl hfound
  | _ => dsimp only; decide

/-- Settles O50: the kernel is the extended code, whose weights are multiples of 4, so no odd word is in it. -/
theorem syndromeLaws : Obligations.SyndromeLaws := by
  rintro s ⟨⟨seed, h, hg, hh⟩, -⟩
  rw [hg, hh]
  simp only [weight_eq_wt]
  refine ⟨syndrome_xor _, syndrome_eq_zero_iff h, fun m => ?_, fun w => syndrome_ne_zero_of_odd h, fun c => ?_,
    syndrome_extendWord_encodeMessage h⟩
  · have hdvd := four_dvd_wt_extendedWord h m
    omega
  · exact ⟨wt_extendWord_odd c, syndrome_ne_zero_of_odd h (wt_extendWord_odd c)⟩

/-- Where the errors lie that each step finds (R107). -/
theorem places_of_searchStep {h : BitMatrix 24 12} {s : BitVec 12} {r : SearchResult} (hstep : SearchStep h s r) :
    (r.caseCode = 1 → r.pattern.toNat % 2 ^ 12 = 0) ∧
    (r.caseCode = 2 → r.pattern.toNat % 2 ^ 12 = 2 ^ (11 - r.idx.toNat) ∧ wt (r.pattern >>> 12) ≤ 2) ∧
    (r.caseCode = 3 → r.pattern.toNat / 2 ^ 12 = 0) ∧
    (r.caseCode = 4 → r.pattern.toNat / 2 ^ 12 = 2 ^ (11 - r.idx.toNat) ∧ wt (r.pattern <<< 12) ≤ 2) := by
  cases hstep with
  | step3 => exact ⟨fun _ => joinHalves_mod _ _, by simp [caseS3]⟩
  | step4 i hi hrow =>
    refine ⟨by simp [caseS4], fun _ => ⟨?_, ?_⟩, by simp [caseS4]⟩
    · rw [joinHalves_mod, unit12_toNat hi, rowIdx_toNat hi]
    · rw [joinHalves_ushiftRight, wt_joinHalves, wt_zero]; omega
  | step5 => exact ⟨by simp [caseS5], by simp [caseS5], fun _ => joinHalves_div _ _, by simp [caseS5]⟩
  | step6 i hi hrow =>
    refine ⟨by simp [caseS6], by simp [caseS6], by simp [caseS6], fun _ => ⟨?_, ?_⟩⟩
    · rw [joinHalves_div, unit12_toNat hi, rowIdx_toNat hi]
    · rw [joinHalves_shiftLeft, wt_joinHalves, wt_zero]; omega
  | step7 => simp [caseS7]

/-- Settles O52: the pattern found is sound, and unique as all light patterns are. -/
theorem srchFindsTheCosetLeader : Obligations.SrchFindsTheCosetLeader := by
  rintro s ⟨⟨seed, h, -, hh⟩, -⟩
  simp only [weight_eq_wt, ← operand_eq_ofNat]
  refine ⟨_, exec_srch s, fun hfound => ?_⟩
  have hstep := searchStep_search s.h (s.operand 12)
  have hplaces := places_of_searchStep hstep
  rw [hh] at hstep hfound hplaces ⊢
  obtain ⟨hsyn, hlight⟩ := syndrome_of_searchStep h hstep hfound
  exact ⟨hsyn, hlight, fun e he hes => eq_of_syndrome_eq h he hlight (hes.trans hsyn.symm), hplaces⟩

/-- Settles O53: SRCH reads the pattern's syndrome. -/
theorem srchFindsEveryPatternOfWeightThree : Obligations.SrchFindsEveryPatternOfWeightThree := by
  rintro s e ⟨⟨seed, h, -, hh⟩, -⟩ he hdin
  rw [weight_eq_wt] at he
  rw [← operand_eq_ofNat] at hdin
  refine ⟨_, exec_srch s, ?_⟩
  rw [hdin, hh]
  exact ⟨pattern_search_syndrome h he, caseCode_mem_one_four (caseCode_ne_caseS7_of_wt_le_three h he)⟩

/-- Settles O54: what a found pattern takes away is the word's whole syndrome. -/
theorem correctorLaws : Obligations.CorrectorLaws := by
  rintro s w e ⟨⟨seed, h, -, hh⟩, -⟩
  rw [hh]
  refine ⟨xor_cancel_right w e, BitVec.xor_zero, fun hfound => ?_⟩
  obtain ⟨hsyn, -⟩ := syndrome_of_searchStep h (searchStep_search _ _) hfound
  have hzero : syndrome (buildH seed)
      (correct w (search (buildH seed) (syndrome (buildH seed) w)).pattern) = 0 := by
    rw [correct, syndrome_xor, hsyn, BitVec.xor_self]; rfl
  exact ⟨hzero, (syndrome_eq_zero_iff h _).mp hzero⟩

end Sys2Proof.Machine
end

section
/-! Every odd syndrome has a pattern (R98, R119 to R123). The 24 + 2024 patterns of weight 1 and 3 have different
syndromes, all of odd weight, and there are no more than 2048 vectors of odd weight: so the search ends before step 7 on
every odd syndrome, and every received word is near a codeword. -/

namespace Sys2Proof.Machine

open Sys2Proof.Spec

/-! ## Counting patterns and odd vectors -/

/-- The vector whose elements equal to 1 are those at the given places. -/
def vectorOfPlaces (n : Nat) (places : Finset Nat) : BitVec n := ofElems n fun j => decide (j ∈ places)

theorem elem_vectorOfPlaces {n : Nat} (places : Finset Nat) {j : Nat} (hj : j < n) :
    elem (vectorOfPlaces n places) j = decide (j ∈ places) := by
  rw [vectorOfPlaces, elem_ofElems, decide_eq_true hj, Bool.true_and]

theorem countOnes_eq_card (n : Nat) (f : Nat → Bool) : countOnes n f = {j ∈ Finset.range n | f j}.card := by
  have hcard : {j ∈ Finset.range n | f j}.card = ((List.range n).filter fun j => decide (f j = true)).length := rfl
  rw [hcard, ← length_filter_range]; simp only [Bool.decide_eq_true]

theorem wt_vectorOfPlaces {n : Nat} {places : Finset Nat} (h : places ⊆ Finset.range n) :
    wt (vectorOfPlaces n places) = places.card := by
  rw [wt, countOnes_congr fun j hj => elem_vectorOfPlaces places hj, countOnes_eq_card]
  simp only [decide_eq_true_eq, Finset.filter_mem_eq_inter, Finset.inter_eq_right.mpr h]

theorem vectorOfPlaces_injOn (n : Nat) : Set.InjOn (vectorOfPlaces n) {places | places ⊆ Finset.range n} := by
  intro p hp q hq hpq
  have hmem : ∀ j < n, (j ∈ p ↔ j ∈ q) := fun j hj => by
    simpa [elem_vectorOfPlaces _ hj] using congrArg (elem · j) hpq
  ext j
  by_cases hj : j < n
  · exact hmem j hj
  · exact iff_of_false (fun h => hj (Finset.mem_range.mp (hp h))) fun h => hj (Finset.mem_range.mp (hq h))

/-- The places of the errors in the 24-bit patterns of weight 1 and 3. -/
def oddPlaces : Finset (Finset Nat) := (Finset.range 24).powersetCard 1 ∪ (Finset.range 24).powersetCard 3

theorem card_oddPlaces : oddPlaces.card = 2048 := by
  have hdisjoint := Finset.pairwise_disjoint_powersetCard (Finset.range 24) (show 1 ≠ 3 by decide)
  rw [oddPlaces, Finset.card_union_of_disjoint hdisjoint, Finset.card_powersetCard, Finset.card_powersetCard,
    Finset.card_range]
  rfl

theorem mem_oddPlaces {places : Finset Nat} (h : places ∈ oddPlaces) :
    places ⊆ Finset.range 24 ∧ (places.card = 1 ∨ places.card = 3) := by
  simp only [oddPlaces, Finset.mem_union, Finset.mem_powersetCard] at h
  tauto

/-- The 12-bit vectors of odd weight. -/
def oddVectors : Finset (BitVec 12) := {v | wt v % 2 = 1}

theorem mem_oddVectors {v : BitVec 12} : v ∈ oddVectors ↔ wt v % 2 = 1 := by
  rw [oddVectors, Finset.mem_filter_univ]

/-- A flipped element takes an odd vector to an even one. -/
theorem xor_unit12_mem_compl_oddVectors {v : BitVec 12} (hv : v ∈ oddVectors) : v ^^^ unit12 0 ∈ oddVectorsᶜ := by
  have hparity := wt_xor_mod v (unit12 0)
  rw [wt_unit12 (by decide)] at hparity
  rw [mem_oddVectors] at hv
  rw [Finset.mem_compl, mem_oddVectors]
  omega

/-- At most half of the vectors are odd, as flipping an element maps them one-to-one to even ones. -/
theorem card_oddVectors_le : oddVectors.card ≤ 2048 := by
  have hflip : oddVectors.card ≤ oddVectorsᶜ.card :=
    Finset.card_le_card_of_injOn (· ^^^ unit12 0) (fun _ => xor_unit12_mem_compl_oddVectors)
      fun _ _ _ _ => (BitVec.xor_left_inj _).mp
  have hall : oddVectors.card + oddVectorsᶜ.card = 2 ^ 12 := by
    rw [Finset.card_add_card_compl, ← FinEnum.card_eq_fintypeCard, FinEnum.card_bitVec]
  omega

/-- A light error is extended to a light one, as the appended element makes the weight odd (R101). -/
theorem wt_extendedError_le {e : BitVec 23} (he : wt e ≤ 3) : wt (extendedError e) ≤ 3 := by
  rw [extendedError_eq_extendWord, wt_extendWord]; omega

section admissible

variable {seed : BitVec 11} (h : seed ∈ Config.admissibleSeeds)
include h

/-- Every vector of odd weight is the syndrome of a pattern of weight 1 or 3: a map that is injective into a set no
larger than its domain is onto it. -/
theorem exists_pattern_of_odd {s : BitVec 12} (hs : wt s % 2 = 1) :
    ∃ e : BitVec 24, wt e ≤ 3 ∧ syndrome (buildH seed) e = s := by
  have hmaps : Set.MapsTo (fun p => syndrome (buildH seed) (vectorOfPlaces 24 p)) oddPlaces oddVectors := by
    intro p hp
    obtain ⟨hsub, hcard⟩ := mem_oddPlaces hp
    rw [Finset.mem_coe, mem_oddVectors, wt_syndrome_mod_two h, wt_vectorOfPlaces hsub]
    omega
  have hinj : Set.InjOn (fun p => syndrome (buildH seed) (vectorOfPlaces 24 p)) oddPlaces := by
    intro p hp q hq hpq
    obtain ⟨hp, hcardp⟩ := mem_oddPlaces hp
    obtain ⟨hq, hcardq⟩ := mem_oddPlaces hq
    refine vectorOfPlaces_injOn 24 hp hq (eq_of_syndrome_eq h ?_ ?_ hpq)
    · rw [wt_vectorOfPlaces hp]; omega
    · rw [wt_vectorOfPlaces hq]; omega
  have honto := Finset.surjOn_of_injOn_of_card_le _ hmaps hinj (card_oddVectors_le.trans_eq card_oddPlaces.symm)
  obtain ⟨p, hp, rfl⟩ := honto (mem_oddVectors.mpr hs)
  obtain ⟨hsub, hcard⟩ := mem_oddPlaces hp
  exact ⟨vectorOfPlaces 24 p, by rw [wt_vectorOfPlaces hsub]; omega, rfl⟩

/-- The search ends before step 7 on every syndrome of odd weight (R109). -/
theorem caseCode_ne_caseS7_of_odd {s : BitVec 12} (hs : wt s % 2 = 1) : (search (buildH seed) s).caseCode ≠ caseS7 := by
  obtain ⟨e, he, rfl⟩ := exists_pattern_of_odd h hs
  exact caseCode_ne_caseS7_of_wt_le_three h he

/-! ## The code is perfect (R98) -/

/-- Every received word is a codeword with an error of weight at most 3: the extension of the word and a pattern of its
syndrome differ by a word of the extended code, and the pattern is the extended error. -/
theorem exists_near_codeword (w : BitVec 23) :
    ∃ (m : BitVec 12) (e : BitVec 23), wt e ≤ 3 ∧ w = encodeMessage (buildG seed) m ^^^ e := by
  have hodd : wt (syndrome (buildH seed) (extendWord w)) % 2 = 1 := by rw [wt_syndrome_mod_two h, wt_extendWord_odd]
  obtain ⟨p, hp, hsyn⟩ := exists_pattern_of_odd h hodd
  have hzero : syndrome (buildH seed) (extendWord w ^^^ p) = 0 := by rw [syndrome_xor, hsyn, BitVec.xor_self]; rfl
  obtain ⟨m, hm⟩ := (syndrome_eq_zero_iff h _).mp hzero
  obtain ⟨e, rfl⟩ : ∃ e, w = encodeMessage (buildG seed) m ^^^ e := ⟨encodeMessage (buildG seed) m ^^^ w, by
    rw [xor_cancel_left]⟩
  refine ⟨m, e, ?_, rfl⟩
  rw [extendWord_encodeMessage_xor h, BitVec.xor_assoc, xor_left_eq_self_iff, extendedError_eq_extendWord] at hm
  have hwt := wt_extendWord e
  rw [BitVec.xor_eq_zero_iff.mp hm] at hwt
  omega

/-- A word is within distance 3 of one codeword at most, as codewords are 7 apart. -/
theorem eq_of_near_codewords {w : BitVec 23} {m n : BitVec 12} (hm : wt (w ^^^ encodeMessage (buildG seed) m) ≤ 3)
    (hn : wt (w ^^^ encodeMessage (buildG seed) n) ≤ 3) : m = n := by
  by_contra hne
  have hapart := seven_le_wt_encodeMessage_xor h hne
  have hsum : encodeMessage (buildG seed) m ^^^ encodeMessage (buildG seed) n =
      (w ^^^ encodeMessage (buildG seed) m) ^^^ (w ^^^ encodeMessage (buildG seed) n) := by
    rw [BitVec.xor_comm w (encodeMessage _ m), BitVec.xor_assoc, xor_cancel_left]
  have hnear := wt_xor_le (w ^^^ encodeMessage (buildG seed) m) (w ^^^ encodeMessage (buildG seed) n)
  rw [hsum] at hapart
  omega

/-! ## What DEC.C returns (R119, R123) -/

/-- The syndrome of a received word is that of its extended error (R101). -/
theorem searchReceived_encodeMessage_xor (m : BitVec 12) (e : BitVec 23) :
    searchReceived (buildH seed) (encodeMessage (buildG seed) m ^^^ e) =
      search (buildH seed) (syndrome (buildH seed) (extendedError e)) := by
  rw [searchReceived, extendWord_encodeMessage_xor h, syndrome_xor, syndrome_extendedWord h]
  exact congrArg _ BitVec.zero_xor

/-- A light error is corrected, and what remains is the message's word of the extended code. -/
theorem correctReceived_encodeMessage_xor (m : BitVec 12) {e : BitVec 23} (he : wt e ≤ 3) :
    correctReceived (buildH seed) (encodeMessage (buildG seed) m ^^^ e) = extendedWord (buildH seed) m := by
  rw [correctReceived, searchReceived_encodeMessage_xor h, pattern_search_syndrome h (wt_extendedError_le he), correct,
    extendWord_encodeMessage_xor h, xor_cancel_right]

/-- DEC.C of a codeword with a light error returns the message, and the error in EPAT. -/
theorem exec_decC_of_received {s : State} (hh : s.h = buildH seed) {m : BitVec 12} {e : BitVec 23} (he : wt e ≤ 3)
    (hw : s.operand 23 = encodeMessage (buildG seed) m ^^^ e) :
    ∃ t, exec .decC s = .next t ∧ t.dout.toNat = m.toNat ∧ t.caseCode ≠ caseS7 ∧
      (1 ≤ t.caseCode.toNat ∧ t.caseCode.toNat ≤ 4) ∧ t.epat = extendedError e := by
  have hfound := caseCode_ne_caseS7_of_wt_le_three h (wt_extendedError_le he)
  refine ⟨_, exec_decC s, ?_⟩
  rw [hw, hh, correctReceived_encodeMessage_xor h m he, searchReceived_encodeMessage_xor h]
  refine ⟨?_, hfound, caseCode_mem_one_four hfound, pattern_search_syndrome h (wt_extendedError_le he)⟩
  rw [State.setCase_dout, State.setDout_dout, BitVec.toNat_ushiftRight, Nat.shiftRight_eq_div_pow, extendedWord, pair_eq,
    joinHalves_div]

/-- An error-free codeword is found at row 11, the only row near its syndrome. -/
theorem search_syndrome_of_codeword :
    search (buildH seed) 0xFFE = ⟨0x000001, 2, 11⟩ := by
  have hlast : bRow (buildH seed) 11 = 0xFFE := by
    have := rowValue_buildH_last seed
    rwa [rowValue_eq] at this
  have hrow : wt (0xFFE ^^^ bRow (buildH seed) 11) ≤ 2 := by rw [hlast]; decide
  have hfirst : ∀ j < 11, 2 < wt (0xFFE ^^^ bRow (buildH seed) j) := fun j hj => by
    have hapart := wt_lowerHalf_xor_of_admissible h (r := 11) (c := j) (by decide) (by omega) (by omega)
    rw [matRow_lowerHalf _ (by decide), matRow_lowerHalf _ (by omega), hlast] at hapart
    omega
  rw [search_step4 (by decide) (matchRow_eq_some (by decide) hrow hfirst), hlast]
  rfl

end admissible

/-- Settles O55: DEC.C searches for the syndrome of a word near a codeword, and SRCH finds every odd syndrome. -/
theorem decCorrectedNeverReportsUncorrectable : Obligations.DecCorrectedNeverReportsUncorrectable := by
  rintro s ⟨⟨seed, h, -, hh⟩, -⟩
  refine ⟨?_, _, exec_srch s, fun hunc => ?_⟩
  · obtain ⟨m, e, he, hw⟩ := exists_near_codeword h (s.operand 23)
    obtain ⟨t, ht, -, hfound, ⟨hpos, hle⟩, -⟩ := exec_decC_of_received h hh he hw
    exact ⟨t, ht, hpos, hle, beq_eq_false_iff_ne.mpr hfound⟩
  · rw [weight_eq_wt, ← operand_eq_ofNat]
    by_contra heven
    have hfound := caseCode_ne_caseS7_of_odd h (s := s.operand 12) (by omega)
    rw [← hh] at hfound
    exact hfound (beq_iff_eq.mp hunc)

/-- Settles O57: an error-free codeword is the error 0, whose extension the search finds at row 11. -/
theorem decCorrectedRecoversTheMessage : Obligations.DecCorrectedRecoversTheMessage := by
  rintro s m e ⟨⟨seed, h, hg, hh⟩, -⟩ he hw
  rw [weight_eq_wt] at he
  rw [← operand_eq_ofNat, hg] at hw
  obtain ⟨t, ht, hdout, -, ⟨hpos, hle⟩, hepat⟩ := exec_decC_of_received h hh he hw
  refine ⟨t, ht, hdout, hpos, hle, hepat, ?_⟩
  rintro rfl
  have hfree : s.operand 23 = encodeMessage (buildG seed) m := hw.trans BitVec.xor_zero
  rw [exec_decC, hfree, hh, searchReceived, syndrome_extendWord_encodeMessage h,
    search_syndrome_of_codeword h] at ht
  cases ht
  exact ⟨rfl, rfl, rfl⟩

/-- Settles O58: the word is a codeword with a light error too, and DEC.C returns the message of that codeword. -/
theorem fourOrMoreErrorsGiveAnotherMessage : Obligations.FourOrMoreErrorsGiveAnotherMessage := by
  rintro s m e ⟨⟨seed, h, hg, hh⟩, -⟩ he hw
  simp only [weight_eq_wt, ← operand_eq_ofNat, hg] at he hw ⊢
  obtain ⟨n, f, hf, hnear⟩ := exists_near_codeword h (s.operand 23)
  obtain ⟨t, ht, hdout, -⟩ := exec_decC_of_received h hh hf hnear
  have hn : wt (s.operand 23 ^^^ encodeMessage (buildG seed) n) ≤ 3 := by
    rwa [hnear, xor_xor_cancel_comm]
  rw [← hw]
  refine ⟨t, n, ht, hdout, ?_, hn, fun k hk => eq_of_near_codewords h hk hn⟩
  rintro rfl
  rw [hw, xor_xor_cancel_comm] at hn
  omega

end Sys2Proof.Machine
end

section
/-! Exceptions (R128): what an error of a command changes. -/

namespace Sys2Proof.Machine

open Sys2Proof.Spec

/-- Settles O5: the decoder rejects a word of the wrong length by name, and raising an error writes ERR alone. -/
theorem anErrorWritesOnlyErr : Obligations.AnErrorWritesOnlyErr := by
  refine fun w s => ⟨fun hill => execute_of_illegal hill s, fun hlegal hlen => ?_⟩
  rw [← not_fieldsLegal_iff_illegal, not_not] at hlegal
  rw [← lenOf_eq_field, ← opOf_eq_field, ← expLen_eq_expectedLen] at hlen
  exact execute_error (decode_of_wrongLength hlegal hlen)

end Sys2Proof.Machine
end

section
/-! A command that reset interrupts (R151). Cutting the command short only answers the host and asserts reset, so the
release that follows is an ordinary one, and leaves the block in the reset state with its own matrices. -/

namespace Sys2Proof.Machine

variable {s t u : State} {rest : List HostEvent}

/-- Outside reset, a command write can be cut short. -/
theorem step_cutCommand {v : Word} (hreset : s.resetAsserted = false) (hpending : s.pending = .cutCommand v :: rest) :
    step s = .next { s with pending := rest }.cutByReset := by
  rw [step_event hpending]
  simp [hostStep, hreset]

/-- A release of reset that was asserted resets the registers. -/
theorem step_release (hreset : s.resetAsserted = true) (hpending : s.pending = .resetInput false :: rest) :
    step s = .next { s.resetRegs with resetAsserted := false, pending := rest } := by
  rw [step_event hpending]
  exact congrArg Host.Outcome.next (resetLevel_release hreset)

theorem core_run_two (hfirst : step s = .next t) (hsecond : step t = .next u) : core.run 2 s = .next u := by
  simp only [Host.Core.run, core, hfirst, hsecond]

/-- The reset registers are those of the reset state; the matrices, which reset does not write, stay (R148, R41). -/
theorem resetRegs_sameBlock (s : State) : s.resetRegs.SameBlock { State.reset with g := s.g, h := s.h } :=
  ⟨rfl, rfl, rfl, rfl, rfl, rfl, rfl, rfl, rfl, rfl⟩

/-- Settles O22: the command is cut short before it has any effect, and the release that follows resets the block. -/
theorem resetDuringACommandLeavesTheResetState : Obligations.ResetDuringACommandLeavesTheResetState := by
  intro s v rest hreset hpending
  have hcut := step_cutCommand hreset hpending
  have hrelease := step_release (s := { s with pending := .resetInput false :: rest }.cutByReset) rfl rfl
  exact ⟨_, core_run_two hcut hrelease, resetRegs_sameBlock s, rfl, rfl⟩

end Sys2Proof.Machine
end

section
/-! Words and instructions (R61 to R71, R75). A word is the encoding of what it decodes to, each way round, and `len=N`
in a command line leaves every field but LEN as the encoder made it. -/

namespace Sys2Proof.Machine

open Sys2Proof.Spec

variable {w : Word} {i : Instr}

/-! ## Decode and encode (R61 to R70) -/

theorem decode_encode_of_isOperation (hi : isOperation i = true) (hwf : i.WellFormed) : decode (encode i) = .ok i :=
  decode_of_mem_operationTable _ (mem_operationTable hi hwf)

theorem extractLsb'_op_encode_reserved (op : BitVec 4) (rest : BitVec 28) :
    (encode (.reserved op rest)).extractLsb' 0 4 = op :=
  BitVec.eq_of_toNat_eq (Laws.EncodedOp.reserved op rest)

theorem extractLsb'_rest_encode_reserved (op : BitVec 4) (rest : BitVec 28) :
    (encode (.reserved op rest)).extractLsb' 4 28 = rest := by
  apply BitVec.eq_of_getLsbD_eq
  intro j hj
  simp [encode, hj, show 4 + j < 32 by omega]

theorem decode_encode_reserved {op : BitVec 4} (hop : 9 ≤ op.toNat) (rest : BitVec 28) :
    decode (encode (.reserved op rest)) = .ok (.reserved op rest) := by
  have hfield : opOf (encode (.reserved op rest)) = op.toNat := Laws.EncodedOp.reserved op rest
  rw [decode_reservedOp (hfield.symm ▸ hop), extractLsb'_op_encode_reserved, extractLsb'_rest_encode_reserved]

/-- Settles O1: the table lists the word of every operation, and a reserved word keeps all its bits. -/
theorem decodeOfEncode : Obligations.DecodeOfEncode := by
  intro i hwf
  cases i with
  | reserved op rest => exact decode_encode_reserved (of_decide_eq_true hwf) rest
  | _ => exact decode_encode_of_isOperation rfl hwf

/-- A reserved word is its `OP` and the bits above it. -/
theorem encode_reserved_fields (w : Word) : encode (.reserved (w.extractLsb' 0 4) (w.extractLsb' 4 28)) = w := by
  apply BitVec.eq_of_getLsbD_eq
  intro j hj
  by_cases hlow : j < 4
  · simp [encode, hlow, hj]
  · simp [encode, hlow, hj, show j - 4 < 28 by omega, show 4 + (j - 4) = j by omega]

/-- A word whose `OP` is not reserved is read only as the operation that it encodes. -/
theorem decode_of_opOf_lt (hop : opOf w < 9) (h : decode w = .ok i) :
    isOperation i = true ∧ i.WellFormed ∧ encode i = w := by
  by_cases hlegal : FieldsLegal w
  · by_cases hlen : lenOf w = expLen (opOf w)
    · obtain ⟨j, hj, hoper, hwf, henc⟩ := decode_of_rightLength hlegal hlen
      cases h.symm.trans hj
      exact ⟨hoper, hwf, henc⟩
    · cases h.symm.trans (decode_of_wrongLength hlegal hlen)
  · cases h.symm.trans (decode_of_not_fieldsLegal hlegal hop)

/-- Settles O2: the first check tells a reserved word from the words of the operations. -/
theorem decodedWordIsItsEncoding : Obligations.DecodedWordIsItsEncoding := by
  intro w i h
  rcases Nat.lt_or_ge (opOf w) 9 with hop | hop
  · obtain ⟨-, hwf, henc⟩ := decode_of_opOf_lt hop h
    exact ⟨hwf, henc⟩
  · cases h.symm.trans (decode_reservedOp hop)
    exact ⟨decide_eq_true hop, encode_reserved_fields w⟩

/-- Settles O7, word by word. -/
theorem wordsWrittenOutDecode : Obligations.WordsWrittenOutDecode :=
  ⟨rfl, rfl, rfl, rfl, rfl, rfl, rfl, rfl, rfl, rfl, rfl⟩

/-! ## `len=N` (R75) -/

theorem getLsbD_withLen (w : Word) (n : BitVec 5) {j : Nat} (hj : j < 32) :
    (withLen w n).getLsbD j = if 8 ≤ j ∧ j < 13 then n.getLsbD (j - 8) else w.getLsbD j := by
  simp only [withLen, BitVec.getLsbD_or, BitVec.getLsbD_and, BitVec.getLsbD_not, BitVec.getLsbD_shiftLeft,
    BitVec.getLsbD_setWidth]
  interval_cases j <;> simp

/-- A field that lies outside bits [12:8] is not LEN's. -/
theorem extractLsb'_withLen (w : Word) (n : BitVec 5) {lo len : Nat} (hin : lo + len ≤ 32)
    (hout : lo + len ≤ 8 ∨ 13 ≤ lo) : (withLen w n).extractLsb' lo len = w.extractLsb' lo len := by
  apply BitVec.eq_of_getLsbD_eq
  intro j hj
  rw [BitVec.getLsbD_extractLsb', BitVec.getLsbD_extractLsb', getLsbD_withLen w n (by omega), if_neg (by omega)]

theorem extractLsb'_len_withLen (w : Word) (n : BitVec 5) : (withLen w n).extractLsb' 8 5 = n := by
  apply BitVec.eq_of_getLsbD_eq
  intro j hj
  rw [BitVec.getLsbD_extractLsb', getLsbD_withLen w n (by omega), if_pos (by omega), Nat.add_sub_cancel_left,
    decide_eq_true hj, Bool.true_and]

theorem withLen_self (w : Word) : withLen w (w.extractLsb' 8 5) = w := by
  apply BitVec.eq_of_getLsbD_eq
  intro j hj
  rw [getLsbD_withLen w _ hj]
  split
  case isTrue hlen =>
    obtain ⟨hlo, hhi⟩ := hlen
    rw [BitVec.getLsbD_extractLsb', decide_eq_true (by omega), Bool.true_and, Nat.add_sub_cancel' hlo]
  case isFalse => rfl

theorem opOf_withLen (w : Word) (n : BitVec 5) : opOf (withLen w n) = opOf w :=
  congrArg BitVec.toNat (extractLsb'_withLen w n (by decide) (by decide))

theorem lenOf_withLen (w : Word) (n : BitVec 5) : lenOf (withLen w n) = n.toNat :=
  congrArg BitVec.toNat (extractLsb'_len_withLen w n)

/-- The first six checks do not read LEN. -/
theorem fieldsLegal_withLen (n : BitVec 5) (h : FieldsLegal w) : FieldsLegal (withLen w n) := by
  have hmode : modeOf (withLen w n) = modeOf w := getLsbD_withLen w n (by decide)
  have hrow : rowOf (withLen w n) = rowOf w := extractLsb'_withLen w n (by decide) (by decide)
  have hreserved : reservedOf (withLen w n) = reservedOf w := by
    rw [reservedOf, reservedOf, extractLsb'_withLen w n (by decide) (by decide),
      extractLsb'_withLen w n (by decide) (by decide), extractLsb'_withLen w n (by decide) (by decide)]
  rwa [FieldsLegal, opOf_withLen, hmode, hrow, hreserved]

/-- Settles O9: with the operation's own length the line is the operation's word, and with any other it fails the last
check alone. -/
theorem lenOverrideProvokesInvalidLength : Obligations.LenOverrideProvokesInvalidLength := by
  intro i n s hwf hi
  have hdec := decode_encode_of_isOperation hi hwf
  obtain ⟨hlegal, hlen⟩ := checks_of_decode hi hdec
  rw [← opOf_eq_field, ← expLen_eq_expectedLen, assembleCommand]
  split
  case isTrue hn =>
    have hsame : (encode i).extractLsb' 8 5 = n := BitVec.eq_of_toNat_eq (hlen.trans hn.symm)
    rw [← hsame, withLen_self, execute_ok hdec]
  case isFalse hn =>
    refine execute_error (decode_of_wrongLength (fieldsLegal_withLen n hlegal) ?_)
    rwa [lenOf_withLen, opOf_withLen]

end Sys2Proof.Machine
end

section
/-! The host port (R45 to R57, R147 to R154). A step on an access inside the window and outside reset is the bus
operation it names; what each answers is said once for each form of access. -/

namespace Sys2Proof.Machine

open Sys2Proof.Spec

variable {s t : State} {off width : Nat} {v : Word} {rest : List HostEvent}

/-! ## Accesses the block performs, and those it has no step for (R45, R150) -/

theorem guarded_eq {p : Result} (hin : off < 32) (hreset : s.resetAsserted = false) : guarded off s p = p := by
  simp [guarded, insideWindow, Config.windowBytes, hin, hreset]

theorem guarded_outside {p : Result} (hout : 32 ≤ off) : guarded off s p = .refused .outsideWindow := by
  simp [guarded, insideWindow, Config.windowBytes, Nat.not_lt.mpr hout]

theorem guarded_reset {p : Result} (hin : off < 32) (hreset : s.resetAsserted = true) :
    guarded off s p = .refused .accessDuringReset := by
  simp [guarded, insideWindow, Config.windowBytes, hin, hreset]

theorem accessOk_iff : accessOk off width = true ↔ off % 4 = 0 ∧ width = 32 := decide_eq_true_iff

/-- A step on an access of either kind is what the guard makes of it. -/
theorem step_access (hpending : s.pending = .read off width :: rest ∨ s.pending = .write off width v :: rest) :
    ∃ p, step s = guarded off { s with pending := rest } p := by
  rcases hpending with hp | hp <;> exact ⟨_, step_event hp⟩

/-- Settles O16: the guard refuses the access, whichever it is. -/
theorem forbiddenAccessesHaveNoStep : Obligations.ForbiddenAccessesHaveNoStep := by
  intro s off width v rest hpending
  obtain ⟨p, hstep⟩ := step_access hpending
  rw [hstep]
  exact ⟨guarded_outside, guarded_reset⟩

theorem step_read (hpending : s.pending = .read off width :: rest) (hreset : s.resetAsserted = false)
    (hin : off < 32) : step s = busRead off width { s with pending := rest } :=
  (step_event hpending).trans (guarded_eq hin hreset)

theorem step_write (hpending : s.pending = .write off width v :: rest) (hreset : s.resetAsserted = false)
    (hin : off < 32) : step s = busWrite off width v { s with pending := rest } :=
  (step_event hpending).trans (guarded_eq hin hreset)

/-- Settles O15: neither a read nor a write is performed when its form is refused. -/
theorem refusedAccessesChangeNothing : Obligations.RefusedAccessesChangeNothing := by
  intro s off width v rest hpending hreset hin hform
  have hbad : ¬ accessOk off width = true := by rw [accessOk_iff]; omega
  rcases hpending with hp | hp
  · rw [step_read hp hreset hin, busRead, if_neg hbad]; rfl
  · rw [step_write hp hreset hin, busWrite, if_neg hbad]; rfl

/-! ## Reads (R48, R50) -/

theorem step_read_word (hpending : s.pending = .read off 32 :: rest) (hreset : s.resetAsserted = false)
    (halign : off % 4 = 0) (hin : off < 32) :
    step s = .next ({ s with pending := rest }.reply (.data ({ s with pending := rest }.readRegister off))) := by
  rw [step_read hpending hreset hin, busRead, if_pos (accessOk_iff.mpr ⟨halign, rfl⟩)]

/-- A field placed above a word that ends below it (R30). -/
theorem or_shiftLeft_toNat {n k : Nat} {low : Word} (x : BitVec n) (hlow : low.toNat < 2 ^ k) (hfit : n + k ≤ 32) :
    (low ||| x.setWidth 32 <<< k).toNat = low.toNat + x.toNat * 2 ^ k := by
  have hx : x.toNat * 2 ^ k < 2 ^ 32 :=
    calc x.toNat * 2 ^ k < 2 ^ n * 2 ^ k := Nat.mul_lt_mul_of_pos_right x.isLt (Nat.two_pow_pos k)
      _ = 2 ^ (n + k) := (Nat.pow_add 2 n k).symm
      _ ≤ 2 ^ 32 := Nat.pow_le_pow_right (by decide) hfit
  rw [BitVec.toNat_or, BitVec.toNat_shiftLeft, BitVec.toNat_setWidth_of_le (by omega), Nat.shiftLeft_eq,
    Nat.mod_eq_of_lt hx, ← Nat.shiftLeft_eq, Nat.or_comm, ← Nat.shiftLeft_add_eq_or_of_lt hlow, Nat.shiftLeft_eq,
    Nat.add_comm]

theorem unc_eq_true_iff : s.unc = true ↔ s.caseCode = 5 := beq_iff_eq

/-- The fields of STATUS side by side (R30). -/
theorem statusWord_toNat (s : State) :
    s.statusWord.toNat = s.errCode.toNat + s.unc.toNat * 2 ^ 3 + s.caseCode.toNat * 2 ^ 4 + s.idx.toNat * 2 ^ 8 := by
  have herr := s.errCode.isLt
  have hunc := Bool.toNat_le s.unc
  have hcase := s.caseCode.isLt
  have herrWord : (s.errCode.setWidth 32).toNat = s.errCode.toNat := BitVec.toNat_setWidth_of_le (by decide)
  have hlow := or_shiftLeft_toNat (k := 3) (low := s.errCode.setWidth 32) (BitVec.ofBool s.unc) (by omega) (by decide)
  rw [herrWord, BitVec.toNat_ofBool] at hlow
  have hmid := or_shiftLeft_toNat (k := 4) s.caseCode (hlow.trans_lt (by omega)) (by decide)
  rw [hlow] at hmid
  rw [State.statusWord, or_shiftLeft_toNat _ (hmid.trans_lt (by omega)) (by decide), hmid]

/-- Settles O13: the answer is the register at the offset. -/
theorem readsReturnRegistersAndChangeNothing : Obligations.ReadsReturnRegistersAndChangeNothing := by
  intro s off rest hpending hreset halign hin
  have hwide {n : Nat} (x : BitVec n) (hn : n ≤ 32) : (x.setWidth 32).toNat = x.toNat := BitVec.toNat_setWidth_of_le hn
  refine ⟨_, step_read_word hpending hreset halign hin, ?_, ?_, ?_, ?_, ?_, ?_, ?_, ?_⟩ <;> rintro rfl
  · rfl
  · exact hwide s.din (by decide)
  · exact hwide s.epat (by decide)
  · exact hwide s.dout (by decide)
  · exact hwide s.extReg (by decide)
  · exact hwide s.synReg (by decide)
  · have hunc : s.unc.toNat = if s.caseCode = 5 then 1 else 0 := by
      simp only [← unc_eq_true_iff]; cases s.unc <;> rfl
    refine (statusWord_toNat s).trans ?_
    rw [hunc]; omega
  · rfl

/-! ## Writes (R48, R51) -/

/-- An accepted write to CMD executes its word (R35, R60). -/
theorem step_command (hpending : s.pending = .write 0 32 v :: rest) (hreset : s.resetAsserted = false) :
    step s = execute v ({ s with pending := rest }.reply .written) := step_write hpending hreset (by decide)

/-- An accepted write elsewhere stores what the register takes. -/
theorem step_store (hpending : s.pending = .write off 32 v :: rest) (hreset : s.resetAsserted = false)
    (halign : off % 4 = 0) (hin : off < 32) (h0 : off ≠ 0) :
    step s = .next (({ s with pending := rest }.reply .written).writeRegister off v) := by
  rw [step_write hpending hreset hin, busWrite, if_pos (accessOk_iff.mpr ⟨halign, rfl⟩), if_neg h0]

theorem writeRegister_din (s : State) (v : Word) :
    s.writeRegister 0x04 v = { s with din := BitVec.ofNat 24 v.toNat } := by
  rw [BitVec.ofNat_toNat]; rfl

theorem writeRegister_epat (s : State) (v : Word) :
    s.writeRegister 0x08 v = { s with epat := BitVec.ofNat 24 v.toNat } := by
  rw [BitVec.ofNat_toNat]; rfl

/-- Past EPAT every register ignores a write (R51). -/
theorem writeRegister_of_le (s : State) (v : Word) (h : 0x0C ≤ off) : s.writeRegister off v = s := by
  rcases writeRegister_cases off v s with ⟨rfl, -⟩ | ⟨rfl, -⟩ | ⟨-, -, hw⟩
  · omega
  · omega
  · exact hw

/-- Settles O14, register by register. -/
theorem writesHaveExactlyTheirEffects : Obligations.WritesHaveExactlyTheirEffects := by
  intro s off v rest hpending hreset halign hin
  refine ⟨?_, ?_, ?_, fun hoff => ?_⟩
  · rintro rfl; exact step_command hpending hreset
  · rintro rfl; rw [step_store hpending hreset halign hin (by decide), writeRegister_din]; rfl
  · rintro rfl; rw [step_store hpending hreset halign hin (by decide), writeRegister_epat]; rfl
  · rw [step_store hpending hreset halign hin (by omega), writeRegister_of_le _ _ hoff]; rfl

/-- Settles O10: the step executes the word, and the word runs its instruction. -/
theorem stepRunsTheWrittenCommand : Obligations.StepRunsTheWrittenCommand :=
  fun _ _ _ _ hpending hreset hdec => (step_command hpending hreset).trans (execute_ok hdec)

/-- Settles O11: the step executes the word, and the word raises its error. -/
theorem stepRecordsARejectedWord : Obligations.StepRecordsARejectedWord := fun _ _ _ hpending hreset =>
  ⟨fun hdec => (step_command hpending hreset).trans (execute_error hdec),
    fun hdec => (step_command hpending hreset).trans (execute_error hdec)⟩

/-- Settles O12: a step performs the soonest event, and there is none. -/
theorem nothingPendingLeavesTheStateAlone : Obligations.NothingPendingLeavesTheStateAlone := fun _ => step_idle

/-! ## Which steps complete (R45, R146, R150) -/

theorem busWrite_next (off width : Nat) (v : Word) (s : State) : ∃ t, busWrite off width v s = .next t := by
  rcases busWrite_cases off width v s with ⟨-, -, hw⟩ | ⟨-, -, hw⟩ | ⟨-, hw⟩ <;> rw [hw]
  · exact execute_next v _
  · exact ⟨_, rfl⟩
  · exact ⟨_, rfl⟩

/-- A guarded access completes exactly where the guard lets it, since every bus operation does. -/
theorem exists_guarded_next {p : Result} (hp : ∃ t, p = .next t) :
    (∃ t, guarded off s p = .next t) ↔ off < Config.windowBytes ∧ s.resetAsserted = false := by
  simp only [guarded_next, exists_and_left, hp, and_true]

/-- An event completes exactly when it is one the model performs. -/
theorem exists_hostStep_next (e : HostEvent) (s : State) : (∃ t, hostStep e s = .next t) ↔ e.Dutiful s := by
  cases e with
  | read off width =>
    obtain ⟨r, hr⟩ := busRead_next off width s
    exact exists_guarded_next ⟨_, hr⟩
  | write off width v => exact exists_guarded_next (busWrite_next off width v s)
  | resetInput a => exact ⟨fun _ => trivial, fun _ => ⟨_, rfl⟩⟩
  | cutCommand v => cases h : s.resetAsserted <;> simp [hostStep, HostEvent.Dutiful, h]

/-- What the host will do after an event does not matter to it. -/
theorem dutiful_pending_iff (e : HostEvent) (s : State) (rest : List HostEvent) :
    e.Dutiful { s with pending := rest } ↔ e.Dutiful s := by
  cases e <;> rfl

/-- Settles O17: a step is its event's, and no fault exists. -/
theorem dutifulStepsComplete : Obligations.DutifulStepsComplete := by
  refine fun s => ⟨?_, nofun⟩
  rcases hp : s.pending with _ | ⟨e, rest⟩
  · exact ⟨fun _ _ _ => nofun, fun _ => ⟨s, step_idle hp⟩⟩
  rw [step_event hp]
  refine (exists_hostStep_next e _).trans ((dutiful_pending_iff e s rest).trans ⟨fun h e' rest' heq => ?_, fun h => ?_⟩)
  · cases heq; exact h
  · exact h e rest rfl

/-! ## What an access leaves alone (R31, R37) -/

/-- An access that writes no command answers the host, and beyond that an accepted write to DIN or EPAT stores there. -/
theorem hostStep_access {e : HostEvent} (haccess : isAccess e = true) (hcommand : isCommandWrite e = false)
    (h : hostStep e s = .next t) :
    ∃ r, t = s.reply r ∨ (∃ v, e = .write 0x04 32 v ∧ t = (s.reply r).setDin (v.setWidth 24)) ∨
      (∃ v, e = .write 0x08 32 v ∧ t = (s.reply r).setEpat (v.setWidth 24)) := by
  cases e with
  | read off width =>
    obtain ⟨-, -, hread⟩ := guarded_next.mp h
    obtain ⟨r, hr⟩ := busRead_next off width s
    cases hr.symm.trans hread
    exact ⟨r, .inl rfl⟩
  | write off width v =>
    obtain ⟨-, -, hwrite⟩ := guarded_next.mp h
    rcases busWrite_cases off width v s with ⟨rfl, rfl, -⟩ | ⟨-, hok, hw⟩ | ⟨-, hw⟩
    · cases hcommand
    · obtain ⟨-, rfl⟩ := accessOk_iff.mp hok
      cases hw.symm.trans hwrite
      refine ⟨.written, ?_⟩
      rcases writeRegister_cases off v (s.reply .written) with ⟨rfl, hs⟩ | ⟨rfl, hs⟩ | ⟨-, -, hs⟩ <;> rw [hs]
      · exact .inr (.inl ⟨v, rfl, rfl⟩)
      · exact .inr (.inr ⟨v, rfl, rfl⟩)
      · exact .inl rfl
    · cases hw.symm.trans hwrite
      exact ⟨.busError, .inl rfl⟩
  | resetInput _ | cutCommand _ => cases haccess

/-- Settles O18: the two stores are the accesses its last clauses set apart. -/
theorem otherAccessesLeaveTheBlockAlone : Obligations.OtherAccessesLeaveTheBlockAlone := by
  intro s t e rest hpending haccess hcommand hstep
  rw [step_event hpending] at hstep
  obtain ⟨r, rfl | ⟨v, rfl, rfl⟩ | ⟨v, rfl, rfl⟩⟩ := hostStep_access haccess hcommand hstep <;> simp

/-! ## A write and the read after it (R57, R154) -/

/-- The low 24 bits of a word as a register holds them and as a read gives them back. -/
theorem setWidth_24_setWidth_32 (v : Word) : (v.setWidth 24).setWidth 32 = BitVec.ofNat 32 (v.toNat % 2 ^ 24) := by
  apply BitVec.eq_of_toNat_eq
  rw [BitVec.toNat_setWidth_of_le (by decide), BitVec.toNat_setWidth, BitVec.toNat_ofNat]
  omega

/-- Settles O19: the read answers the register the write stored to. -/
theorem aWriteIsReadByTheNextAccess : Obligations.AWriteIsReadByTheNextAccess := by
  intro s off v rest hoff hpending hreset
  rw [← setWidth_24_setWidth_32]
  obtain rfl | rfl := hoff
  all_goals exact ⟨_, core_run_two (step_store hpending hreset (by decide) (by decide) (by decide))
    (step_read_word rfl hreset (by decide) (by decide)), rfl, rfl⟩

/-! ## The window (R7, R45) -/

/-- Settles O20: an address in the window has one offset, its distance from BASE. -/
theorem windowIsThe32BytesAtBase : Obligations.WindowIsThe32BytesAtBase := by
  refine fun a => ⟨fun off => ?_, Nat.mul_mod_right 4 _⟩
  rw [windowOffset, Config.windowBytes]
  split
  case isTrue hin => rw [Option.some.injEq]; omega
  case isFalse hout => exact ⟨nofun, fun _ => by omega⟩

end Sys2Proof.Machine
end

section
/-! What commands write (R67, R68), and the invariant that every step keeps (R152): a command leaves in ERR the code of
its outcome, and in CASE and IDX what they held, what a search answers, or the mark of Raw mode. -/

namespace Sys2Proof.Machine

open Sys2Proof.Spec

variable {s t : State} {i : Instr}

/-! ## The frame of every command (R25, R37, R68) -/

theorem exec_din (h : exec i s = .next t) : t.din = s.din := by
  cases i with
  | rdg row => rcases exec_rdg_cases row with hr | hr <;> rw [hr] at h <;> cases h <;> rfl
  | rdh row => rcases exec_rdh_cases row with hr | hr <;> rw [hr] at h <;> cases h <;> rfl
  | _ => cases h; rfl

/-- The registers a command may write, each with the commands that do (R68). -/
theorem exec_results (h : exec i s = .next t) :
    (i = .nop ∨ isOperation i = false → t.dout = s.dout) ∧
    (i ≠ .decC → i ≠ .decR → i ≠ .ext → t.extReg = s.extReg) ∧
    (i ≠ .decC → i ≠ .syn → t.synReg = s.synReg) ∧
    (i ≠ .decC → i ≠ .srch → t.epat = s.epat) ∧
    (i ≠ .decC → i ≠ .decR → i ≠ .srch → t.caseCode = s.caseCode ∧ t.idx = s.idx) := by
  cases i with
  | rdg row => rcases exec_rdg_cases row with hr | hr <;> rw [hr] at h <;> cases h <;> simp [isOperation]
  | rdh row => rcases exec_rdh_cases row with hr | hr <;> rw [hr] at h <;> cases h <;> simp [isOperation]
  | _ => cases h; simp [isOperation]

/-- Settles O27: the operand, the matrices and the host's side stay, and the result registers as the table says. -/
theorem commandsWriteOnlyWhatTheTableLists : Obligations.CommandsWriteOnlyWhatTheTableLists := by
  intro i s t h
  obtain ⟨hg, hh⟩ := exec_matrices h
  exact ⟨exec_din h, hg, hh, exec_sameHost h, exec_results h⟩

/-! ## Operands (R67) -/

/-- Two values of DIN that agree below the operand's length give one operand. -/
theorem operand_congr {len : Nat} {d : BitVec 24} (h : d.toNat % 2 ^ len = s.din.toNat % 2 ^ len) :
    { s with din := d }.operand len = s.operand len := by
  apply BitVec.eq_of_toNat_eq
  simpa only [State.operand, BitVec.toNat_setWidth] using h

/-- Settles O28: a command reads DIN through its operand alone. -/
theorem dinBitsAboveTheOperandAreIgnored : Obligations.DinBitsAboveTheOperandAreIgnored := by
  intro i len hi s d hd
  simp only [List.mem_cons, Prod.mk.injEq, List.not_mem_nil, or_false] at hi
  have hoperand := operand_congr hd
  rcases hi with ⟨rfl, rfl⟩ | ⟨rfl, rfl⟩ | ⟨rfl, rfl⟩ | ⟨rfl, rfl⟩ | ⟨rfl, rfl⟩
  · exact ⟨_, exec_enc s, by rw [exec_enc, hoperand]; rfl⟩
  · exact ⟨_, exec_srch s, by rw [exec_srch, hoperand]; rfl⟩
  · exact ⟨_, exec_decC s, by rw [exec_decC, hoperand]; rfl⟩
  · exact ⟨_, exec_decR s, by rw [exec_decR, hoperand]; rfl⟩
  · exact ⟨_, exec_ext s, by rw [exec_ext, hoperand]; rfl⟩

/-! ## NOP, the matrix reads and SYN (R90, R91, R103, R126) -/

/-- Settles O29: completing a command writes ERR alone. -/
theorem nopClearsErr : Obligations.NopClearsErr := fun _ => exec_nop

/-- A row in DOUT, column by column. -/
theorem getLsbD_zext24_matRow {n m : Nat} (M : BitMatrix n m) (r : Nat) (hm : m ≤ 24) {c : Nat} (hc : c < m) :
    (zext24 (matRow M r)).getLsbD (m - 1 - c) = entry M r c := by
  rw [getLsbD_zext24 _ (by omega), getLsbD_eq_elem _ hc, entry_eq M hc]

/-- A register narrower than DOUT leaves zeros above it (R36). -/
theorem getLsbD_zext24_of_le {n b : Nat} (v : BitVec n) (hb : n ≤ b) : (zext24 v).getLsbD b = false := by
  rw [zext24, BitVec.getLsbD_setWidth, BitVec.getLsbD_of_ge v b hb, Bool.and_false]

/-- Settles O30: DOUT holds the row, or the read is out of range. -/
theorem rdgReadsARowOfG : Obligations.RdgReadsARowOfG := fun s r =>
  ⟨fun hr => ⟨_, exec_rdg hr, rfl, getLsbD_zext24_of_le _ (by decide),
    fun _ hc => getLsbD_zext24_matRow s.g r.toNat (by decide) hc⟩, fun hr => exec_rdg_out hr⟩

/-- Settles O31: DOUT holds the row, or the read is out of range. -/
theorem rdhReadsARowOfH : Obligations.RdhReadsARowOfH := fun s r =>
  ⟨fun hr => ⟨_, exec_rdh hr, rfl, fun _ hb => getLsbD_zext24_of_le _ hb,
    fun _ hc => getLsbD_zext24_matRow s.h r.toNat (by decide) hc⟩, fun hr => exec_rdh_out hr⟩

/-- Settles O38: the operand of SYN is the whole of DIN. -/
theorem synWritesTheProductWithH : Obligations.SynWritesTheProductWithH := by
  intro s
  refine ⟨_, exec_syn s, rfl, zext24_toNat (by decide) _, fun k hk => ?_⟩
  rw [State.setDout_synReg, State.setSyn_synReg, operand_24, getLsbD_syndrome s.h s.din hk]

/-! ## The step that reports an uncorrectable word (R132) -/

/-- The search marks step 7 with a pattern of 0. -/
theorem pattern_of_caseS7 {h : BitMatrix 24 12} {y : BitVec 12} (hcase : (search h y).caseCode = caseS7) :
    (search h y).pattern = 0 := by
  have hstep := searchStep_search h y
  generalize search h y = r at hstep hcase ⊢
  cases hstep with
  | step7 => rfl
  | _ => cases hcase

/-- Settles O56: DEC.C never ends in step 7, DEC.R marks Raw mode, and no command but SRCH writes CASE otherwise. -/
theorem onlySrchReportsUncorrectable : Obligations.OnlySrchReportsUncorrectable := by
  intro i s t hinv h hbefore hafter
  by_cases hsrch : i = .srch
  · subst hsrch
    cases (exec_srch s).symm.trans h
    have hcase : (search s.h (s.operand 12)).caseCode = caseS7 := beq_iff_eq.mp hafter
    exact ⟨rfl, rfl, pattern_of_caseS7 hcase, hcase⟩
  exfalso
  by_cases hdecC : i = .decC
  · subst hdecC
    obtain ⟨⟨u, hu, -, -, hunc⟩, -⟩ := decCorrectedNeverReportsUncorrectable s hinv
    cases h.symm.trans hu
    exact Bool.noConfusion (hafter.symm.trans hunc)
  by_cases hdecR : i = .decR
  · subst hdecR
    cases (exec_decR s).symm.trans h
    cases hafter
  · obtain ⟨-, -, -, -, hframe⟩ := exec_results h
    obtain ⟨hcase, -⟩ := hframe hdecC hdecR hsrch
    rw [State.unc, hcase] at hafter
    exact Bool.noConfusion (hafter.symm.trans hbefore)

/-! ## The status register in every state (R33, R34, R127, R130, R152) -/

/-- The values of CASE and IDX that go together (R33, R34). -/
def CaseOk (c : BitVec 3) (row : BitVec 4) : Prop :=
  c.toNat ≤ 6 ∧ if c = caseS4 ∨ c = caseS6 then row.toNat ≤ 11 else row = 0

/-- The codes a command or a reset leaves in ERR (R127, R130). -/
def ErrOk (e : BitVec 3) : Prop := e = errNone ∨ e = errInvalidLength ∨ e = errIllegalCommand

theorem statusOk_iff : s.StatusOk ↔ ErrOk s.errCode ∧ CaseOk s.caseCode s.idx := Iff.rfl

theorem errOk_none : ErrOk errNone := .inl rfl

theorem errOk_errCodeOf (e : CommandError) : ErrOk (errCodeOf e) := by
  cases e
  · exact .inr (.inr rfl)
  · exact .inr (.inl rfl)

theorem caseOk_zero {c : BitVec 3} (hle : c.toNat ≤ 6) (h4 : c ≠ caseS4) (h6 : c ≠ caseS6) : CaseOk c 0 :=
  ⟨hle, by rw [if_neg (not_or.mpr ⟨h4, h6⟩)]⟩

theorem caseOk_row {c : BitVec 3} {i : Nat} (hc : c = caseS4 ∨ c = caseS6) (hi : i < 12) :
    CaseOk c (BitVec.ofNat 4 i) := by
  refine ⟨by rcases hc with rfl | rfl <;> decide, ?_⟩
  rw [if_pos hc, rowIdx_toNat hi]
  omega

theorem caseOk_none : CaseOk caseNone 0 := caseOk_zero (by decide) (by decide) (by decide)

theorem caseOk_raw : CaseOk caseRaw 0 := caseOk_zero (by decide) (by decide) (by decide)

/-- A search answers a row number with the two steps that match a row, and 0 with the others. -/
theorem caseOk_search (h : BitMatrix 24 12) (y : BitVec 12) : CaseOk (search h y).caseCode (search h y).idx := by
  have hstep := searchStep_search h y
  generalize search h y = r at hstep ⊢
  cases hstep with
  | step4 i hi => exact caseOk_row (.inl rfl) hi
  | step6 i hi => exact caseOk_row (.inr rfl) hi
  | step3 | step5 | step7 => exact caseOk_zero (by dsimp only; decide) (by dsimp only; decide) (by dsimp only; decide)

theorem exec_errOk (h : exec i s = .next t) : ErrOk t.errCode := by
  cases i with
  | rdg row =>
    rcases exec_rdg_cases row with hr | hr <;> rw [hr] at h <;> cases h
    · exact errOk_errCodeOf .illegalCommand
    · exact errOk_none
  | rdh row =>
    rcases exec_rdh_cases row with hr | hr <;> rw [hr] at h <;> cases h
    · exact errOk_errCodeOf .illegalCommand
    · exact errOk_none
  | reserved _ _ => cases h; exact errOk_errCodeOf .illegalCommand
  | _ => cases h; exact errOk_none

theorem exec_caseOk (h : exec i s = .next t) (hs : CaseOk s.caseCode s.idx) : CaseOk t.caseCode t.idx := by
  by_cases hsrch : i = .srch
  · subst hsrch; cases (exec_srch s).symm.trans h; exact caseOk_search _ _
  by_cases hdecC : i = .decC
  · subst hdecC; cases (exec_decC s).symm.trans h; exact caseOk_search _ _
  by_cases hdecR : i = .decR
  · subst hdecR; cases (exec_decR s).symm.trans h; exact caseOk_raw
  · obtain ⟨-, -, -, -, hframe⟩ := exec_results h
    obtain ⟨hcase, hidx⟩ := hframe hdecC hdecR hsrch
    rwa [hcase, hidx]

theorem execute_statusOk {w : Word} (h : execute w s = .next t) (hs : s.StatusOk) : t.StatusOk := by
  obtain ⟨-, hcase⟩ := statusOk_iff.mp hs
  rcases execute_cases w with ⟨i, hi⟩ | ⟨e, he⟩
  · rw [hi] at h; exact ⟨exec_errOk h, exec_caseOk h hcase⟩
  · rw [he] at h; cases h; exact ⟨errOk_errCodeOf e, hcase⟩

theorem resetRegs_statusOk (s : State) : s.resetRegs.StatusOk := ⟨errOk_none, caseOk_none⟩

theorem resetLevel_statusOk (asserted : Bool) (hs : s.StatusOk) : (s.resetLevel asserted).StatusOk := by
  cases asserted
  · cases h : s.resetAsserted
    · rwa [resetLevel_idle h]
    · rw [resetLevel_release h]; exact resetRegs_statusOk s
  · exact hs

theorem writeRegister_statusOk (off : Nat) (v : Word) (hs : s.StatusOk) : (s.writeRegister off v).StatusOk := by
  rcases writeRegister_cases off v s with ⟨-, hw⟩ | ⟨-, hw⟩ | ⟨-, -, hw⟩ <;> rw [hw] <;> exact hs

theorem hostStep_statusOk {e : HostEvent} (h : hostStep e s = .next t) (hs : s.StatusOk) : t.StatusOk := by
  rcases hostStep_next h with ⟨_, _, _, -, rfl⟩ | ⟨_, -, hexec⟩ | ⟨off, _, v, -, -, rfl⟩ | ⟨_, _, _, -, -, rfl⟩ |
    ⟨a, -, rfl⟩ | ⟨_, -, -, rfl⟩
  · exact hs
  · exact execute_statusOk hexec hs
  · exact writeRegister_statusOk off v hs
  · exact hs
  · exact resetLevel_statusOk a hs
  · exact hs

/-- Settles O24: the matrices never change, and every event keeps the status legal. -/
theorem stepKeepsTheInvariant : Obligations.StepKeepsTheInvariant := by
  rintro s t ⟨⟨seed, hseed, hg, hh⟩, hstatus⟩ h
  obtain ⟨hg', hh'⟩ := matricesNeverChange s t h
  refine ⟨⟨seed, hseed, hg'.trans hg, hh'.trans hh⟩, ?_⟩
  rcases step_next h with ⟨-, rfl⟩ | ⟨e, rest, -, hstep⟩
  · exact hstatus
  · exact hostStep_statusOk hstep hstatus

/-- Settles O23: every status field is 0 in the reset state. -/
theorem resetStateMeetsTheInvariant : Obligations.ResetStateMeetsTheInvariant := by
  have hreset : ∀ seed ∈ Config.admissibleSeeds, (State.resetWith seed).Inv := fun seed hseed =>
    ⟨⟨seed, hseed, rfl, rfl⟩, errOk_none, caseOk_none⟩
  exact ⟨hreset Config.seed (by decide), hreset⟩

/-! ## Reset (R148) -/

theorem step_assert {rest : List HostEvent} (hpending : s.pending = .resetInput true :: rest) :
    step s = .next { s with resetAsserted := true, pending := rest } := step_event hpending

/-- Settles O21: the release finds reset asserted. -/
theorem resetLeavesTheResetState : Obligations.ResetLeavesTheResetState := by
  intro s rest hpending
  exact ⟨core_run_two (step_assert hpending) (step_release rfl rfl), rfl, by decide, rfl, rfl, rfl⟩

end Sys2Proof.Machine
end

section
/-! The code in the block's own matrices (R81 to R84, R98, R102, R108), and a whole line of a host program through the
window (R78): an operand, a command and a read of DOUT. -/

namespace Sys2Proof.Machine

open Sys2Proof.Spec

/-! ## The blocks of the matrices (R81 to R84) -/

/-- The lower half of H is B (R84). -/
theorem entry_buildH_lower (seed : BitVec 11) {r k : Nat} (hr : r < 12) (hk : k < 12) :
    entry (buildH seed) (12 + r) k = bEntry seed r k := by
  rw [entry_eq _ hk, elem_buildH seed (by omega) hk, hEntry, if_neg (by omega), Nat.add_sub_cancel_left]

/-- A rotation of the seed in register bits (R11, R81). -/
theorem bhEntry_eq_getLsbD (seed : BitVec 11) (r k : Nat) :
    bhEntry seed r k = if r < 11 then seed.getLsbD (10 - (k + r) % 11) else true := by
  rw [bhEntry, ← getLsbD_eq_elem seed (Nat.mod_lt _ (by decide))]

/-- Settles O34, block by block. -/
theorem blocksAreRotationsOfTheSeed : Obligations.BlocksAreRotationsOfTheSeed := by
  refine fun seed r hr => ⟨fun k hk => ?_, fun k hk => ?_, ?_, fun c => entry_buildG_left seed hr,
    fun c => entry_buildH_top seed hr⟩
  · rw [entry_buildG_right seed hr hk, bhEntry_eq_getLsbD]
  · rw [entry_buildH_lower seed hr (by omega), bEntry, if_pos hk, bhEntry_eq_getLsbD]
  · rw [entry_buildH_lower seed hr (by decide), bEntry_lastColumn]

/-! ## Distances and rows (R98, R102, R108) -/

/-- Settles O39: the top of H is the identity, and the rest is B. -/
theorem syndromeOfHalves : Obligations.SyndromeOfHalves := by
  intro seed a b
  rw [pair_eq, syndrome_joinHalves]

/-- Settles O47: the matrices are those of an admissible seed. -/
theorem codewordsAreSevenApart : Obligations.CodewordsAreSevenApart := by
  rintro s ⟨⟨seed, h, hg, -⟩, -⟩ m n hne
  rw [hg, weight_eq_wt]
  exact seven_le_wt_encodeMessage_xor h hne

/-- Settles O48: the code is perfect, and its words are too far apart for two to be near. -/
theorem everyWordIsNearOneCodeword : Obligations.EveryWordIsNearOneCodeword := by
  rintro s ⟨⟨seed, h, hg, -⟩, -⟩ w
  simp only [hg, weight_eq_wt]
  obtain ⟨m, e, he, rfl⟩ := exists_near_codeword h w
  have hm : wt (encodeMessage (buildG seed) m ^^^ e ^^^ encodeMessage (buildG seed) m) ≤ 3 := by
    rwa [xor_xor_cancel_comm]
  exact ⟨m, hm, fun n hn => eq_of_near_codewords h hn hm⟩

/-- Two rows near one vector are one row, as different rows of B are 6 apart. -/
theorem eq_of_near_rows {seed : BitVec 11} (h : seed ∈ Config.admissibleSeeds) {v : BitVec 12} {i j : Nat} (hi : i < 12)
    (hj : j < 12) (hvi : wt (v ^^^ bRow (buildH seed) i) ≤ 2) (hvj : wt (v ^^^ bRow (buildH seed) j) ≤ 2) : i = j := by
  by_contra hne
  have hapart := wt_lowerHalf_xor_of_admissible h hi hj hne
  have hsum : bRow (buildH seed) i ^^^ bRow (buildH seed) j =
      (v ^^^ bRow (buildH seed) i) ^^^ (v ^^^ bRow (buildH seed) j) := by
    rw [BitVec.xor_comm v (bRow _ i), BitVec.xor_assoc, xor_cancel_left]
  have hnear := wt_xor_le (v ^^^ bRow (buildH seed) i) (v ^^^ bRow (buildH seed) j)
  rw [matRow_lowerHalf _ hi, matRow_lowerHalf _ hj, hsum] at hapart
  omega

/-- Settles O51: the rows compared are those of B, and either step tests one vector. -/
theorem atMostOneRowMatches : Obligations.AtMostOneRowMatches := by
  rintro s ⟨⟨seed, h, -, hh⟩, -⟩ v i j hi hj hvi hvj
  rw [hh, rowValue_eq, weight_eq_wt] at hvi hvj
  exact eq_of_near_rows h hi hj hvi hvj

/-! ## A command line through the window (R78) -/

section window

variable {s t u : State} {i : Instr} {v : Word} {rest : List HostEvent}

theorem core_run_three {r : State} (hfirst : step s = .next t) (hsecond : step t = .next u)
    (hthird : step u = .next r) : core.run 3 s = .next r := by
  simp only [Host.Core.run, core, hfirst, hsecond, hthird]

/-- The state in which the command of a line runs: the operand is in DIN, and both writes are answered. -/
def State.atCommand (s : State) (v : Word) (rest : List HostEvent) : State :=
  { s with din := v.setWidth 24, pending := rest, replies := .written :: .written :: s.replies }

/-- The host writes an operand, has a command run on it and reads DOUT: the answer is what the command left there. -/
theorem run_command_on_operand (hwf : i.WellFormed) (hreset : s.resetAsserted = false)
    (hpending : s.pending = RegName.din.write v :: RegName.cmd.write (encode i) :: .read RegName.dout.offset 32 :: rest)
    (hexec : exec i (s.atCommand v (.read RegName.dout.offset 32 :: rest)) = .next u) :
    ∃ t, core.run 3 s = .next t ∧ t.pending = rest ∧
      t.replies = .data (u.dout.setWidth 32) :: .written :: .written :: s.replies := by
  obtain ⟨hp, hr, ha, -⟩ := exec_sameHost hexec
  have hstore := step_store hpending hreset (by decide) (by decide) (by decide)
  have hcommand := (step_command (s := { s with din := v.setWidth 24, pending := _, replies := _ }) rfl hreset).trans
    ((execute_ok (decodeOfEncode i hwf)).trans hexec)
  have hread := step_read_word hp (ha.trans hreset) (by decide) (by decide)
  exact ⟨_, core_run_three hstore hcommand hread, rfl, congrArg (_ :: ·) hr⟩

/-- The operand of a command is the low bits of the word the host wrote to DIN. -/
theorem operand_atCommand {len : Nat} (hlen : len ≤ 24) {d : BitVec len} (hv : v.toNat % 2 ^ len = d.toNat) :
    (s.atCommand v rest).operand len = d := by
  apply BitVec.eq_of_toNat_eq
  rw [State.operand, State.atCommand, BitVec.setWidth_setWidth_of_le _ hlen, BitVec.toNat_setWidth, hv]

/-- A result in DOUT as the host reads it. -/
theorem zext24_setWidth_32 {n : Nat} (hn : n ≤ 24) (x : BitVec n) : (zext24 x).setWidth 32 = x.setWidth 32 := by
  apply BitVec.eq_of_toNat_eq
  rw [BitVec.toNat_setWidth_of_le (by decide), zext24_toNat hn, BitVec.toNat_setWidth_of_le (by omega)]

end window

/-- Settles O59: the line's command is ENC, or DEC.C on a codeword with a light error. -/
theorem encodeAndDecodeThroughTheWindow : Obligations.EncodeAndDecodeThroughTheWindow := by
  rintro s rest m e ⟨⟨seed, h, hg, hh⟩, -⟩ hreset
  refine ⟨fun v hv hpending => ?_, fun v he hv hpending => ?_⟩
  · have hline := run_command_on_operand rfl hreset hpending (exec_enc _)
    rwa [State.setDout_dout, operand_atCommand (by decide) hv, zext24_setWidth_32 (by decide)] at hline
  · rw [hg] at hv
    rw [weight_eq_wt] at he
    obtain ⟨u, hexec, hdout, -⟩ :=
      exec_decC_of_received (s := s.atCommand v _) h hh he (operand_atCommand (by decide) hv)
    have hword : u.dout.setWidth 32 = m.setWidth 32 := BitVec.eq_of_toNat_eq (by
      rw [BitVec.toNat_setWidth_of_le (by decide), hdout, BitVec.toNat_setWidth_of_le (by decide)])
    rw [← hword]
    exact run_command_on_operand rfl hreset hpending hexec

end Sys2Proof.Machine
end
